-- ==== Sys2Proof/Word.lean ====
section
/-! DEFINITION. Words, register and port numbers, memory cells, and the readings of a word that 00_scope.md R8 names. -/

namespace Sys2Proof

/-- A 16-bit value: a register, a memory cell, an IO port or an instruction word (00_scope.md R4). -/
abbrev Word := BitVec 16

/-- A general register number 0..7 (10_state.md R11). -/
abbrev RegIdx := Fin 8

/-- An IO port number 0..7 (10_state.md R17). -/
abbrev Port := Fin 8

/-- One listed 16-bit cell: its index and the value it holds (10_state.md R16, 20_memory.md R31). -/
abbrev Cell := Nat × Word

/-- `u16(v)`, the unsigned reading in [0, 65535] (R8). -/
abbrev u16 (v : Word) : Nat := v.toNat

/-- `s16(v)`, the two's-complement reading in [-32768, 32767] (R8). -/
abbrev s16 (v : Word) : Int := v.toInt

/-- `wrap16(n)`, the word whose unsigned reading is `n mod 65536` (R8). -/
abbrev wrap16 (n : Int) : Word := BitVec.ofInt 16 n

end Sys2Proof
end

