-- ==== Sys2Proof/Syntax.lean ====
section
/-! DEFINITION. The instructions: one constructor per row of spec/opcode_table.json. -/

namespace Sys2Proof

/-- The condition selected by the 2-bit `flag` field of `J` and `JAL` (30_encoding.md R55). -/
inductive Cond where
  /-- flag 0: unconditional -/
  | always
  /-- flag 1: branch if regA < regB -/
  | less
  /-- flag 2: branch if regA == regB -/
  | equal
  /-- flag 3: branch if regA > regB -/
  | greater
  deriving DecidableEq, Repr

/-- The instructions of 30_encoding.md R56. `t`, `a`, `b` are register numbers, `imm` is the value of
`sext_16(w[7:0])` (R54) and `p` a port number. -/
inductive Instr where
  /-- `NOP` (45_system.md R170) -/
  | nop
  /-- `LOAD rT rB` (40_load_store.md R100) -/
  | load (t b : RegIdx)
  /-- `STORE rA rB` (40_load_store.md R101) -/
  | store (a b : RegIdx)
  /-- `ADD rT rA rB` (41_arith_logic.md R111) -/
  | add (t a b : RegIdx)
  /-- `ADDI rT imm` (41_arith_logic.md R112) -/
  | addi (t : RegIdx) (imm : Int)
  /-- `SUB rT rA rB` (41_arith_logic.md R113) -/
  | sub (t a b : RegIdx)
  /-- `AND rT rA rB` (41_arith_logic.md R114) -/
  | and (t a b : RegIdx)
  /-- `XOR rT rA rB` (41_arith_logic.md R115) -/
  | xor (t a b : RegIdx)
  /-- `J rT`, `J rT f rA rB` (42_control_flow.md R131) -/
  | j (t : RegIdx) (f : Cond) (a b : RegIdx)
  /-- `JAL rT`, `JAL rT f rA rB` (42_control_flow.md R132) -/
  | jal (t : RegIdx) (f : Cond) (a b : RegIdx)
  /-- `SSP rA` (42_control_flow.md R133) -/
  | ssp (a : RegIdx)
  /-- `SET rT imm` (41_arith_logic.md R116) -/
  | set (t : RegIdx) (imm : Int)
  /-- `RET` (42_control_flow.md R134) -/
  | ret
  /-- `SFT rT << rA rB`, operator 0 (43_shift.md R151) -/
  | sftLeft (t a b : RegIdx)
  /-- `SFT rT >>> rA rB`, operator 1 (43_shift.md R152) -/
  | sftLogicalRight (t a b : RegIdx)
  /-- `SFT rT >> rA rB`, operator 2 (43_shift.md R153) -/
  | sftArithRight (t a b : RegIdx)
  /-- Opcode 13 with operator 3: the table's row `SFT.INVALID`, whose only effect is the fault
  `InvalidShiftOperator` (43_shift.md R154). A constructor so that the table's row has one
  (DESIGN CHOICE, log 10). -/
  | sftInvalid (t a b : RegIdx)
  /-- `IN rT p` (44_io.md R160) -/
  | inPort (t : RegIdx) (p : Port)
  /-- `OUT rT p` (44_io.md R161) -/
  | outPort (t : RegIdx) (p : Port)
  /-- `HALT` (45_system.md R171) -/
  | halt
  deriving DecidableEq, Repr

/-- The row of spec/opcode_table.json an instruction belongs to, by its mnemonic there (30_encoding.md R56). -/
def Instr.mnemonic : Instr → String
  | .nop => "NOP"
  | .load _ _ => "LOAD"
  | .store _ _ => "STORE"
  | .add _ _ _ => "ADD"
  | .addi _ _ => "ADDI"
  | .sub _ _ _ => "SUB"
  | .and _ _ _ => "AND"
  | .xor _ _ _ => "XOR"
  | .j _ _ _ _ => "J"
  | .jal _ _ _ _ => "JAL"
  | .ssp _ => "SSP"
  | .set _ _ => "SET"
  | .ret => "RET"
  | .sftLeft _ _ _ => "SFT.LEFT"
  | .sftLogicalRight _ _ _ => "SFT.LOGICAL_RIGHT"
  | .sftArithRight _ _ _ => "SFT.ARITH_RIGHT"
  | .sftInvalid _ _ _ => "SFT.INVALID"
  | .inPort _ _ => "IN"
  | .outPort _ _ => "OUT"
  | .halt => "HALT"

end Sys2Proof
end

