-- ==== Sys2Proof/WellFormed.lean ====
section
/-! DEFINITION. Which instruction terms have all operands in the range the encoding admits. -/

namespace Sys2Proof

/-- `imm8` holds a value of [-128, 127] (30_encoding.md R54, R61). -/
def immInRange (imm : Int) : Bool := decide (-128 ≤ imm ∧ imm ≤ 127)

/-- Operands in range. Register and port numbers are in range by their type (10_state.md R11, R17), so
the immediate is the only operand with a check (30_encoding.md R61). `J` and `JAL` at flag 0 admit every `a` and `b`, 0 or
not (DEDUCED, log 38). -/
def Instr.wellFormed : Instr → Bool
  | .nop => true
  | .load _ _ => true
  | .store _ _ => true
  | .add _ _ _ => true
  | .addi _ imm => immInRange imm
  | .sub _ _ _ => true
  | .and _ _ _ => true
  | .xor _ _ _ => true
  | .j _ _ _ _ => true
  | .jal _ _ _ _ => true
  | .ssp _ => true
  | .set _ imm => immInRange imm
  | .ret => true
  | .sftLeft _ _ _ => true
  | .sftLogicalRight _ _ _ => true
  | .sftArithRight _ _ _ => true
  | .sftInvalid _ _ _ => true
  | .inPort _ _ => true
  | .outPort _ _ => true
  | .halt => true

end Sys2Proof
end

