-- ==== Sys2Proof/Decode.lean ====
section
/-! DEFINITION. The decoder (30_encoding.md R58), the encoder (R61) and the opcode table's rows (R56). -/

namespace Sys2Proof

/-- Why the decoder refuses a word (30_encoding.md R59). `InvalidShiftOperator` is not here: its word
decodes to the table's row `SFT.INVALID`, whose meaning raises it (log 10). -/
inductive DecodeReject where
  /-- The opcode is none of 0..15: no 16-bit word is refused so (60_exceptions.md R182). Safe. -/
  | illegalOpcode
  deriving DecidableEq, Repr

/-! ## Fields (30_encoding.md R53) -/

/-- `w[15:12]`, read as an unsigned number, never by an arithmetic shift (R50). -/
def opcodeField (w : Word) : BitVec 4 := w.extractLsb' 12 4

/-- The 3-bit field whose lowest bit is `lo`, as a register or port number (R53). -/
def field3 (w : Word) (lo : Nat) : Fin 8 := (w.extractLsb' lo 3).toFin

/-- `w[2:1]`: `flag` of `J` and `JAL`, `op` of `SFT` (R53). -/
def selField (w : Word) : BitVec 2 := w.extractLsb' 1 2

/-- `w[5]`: the write bit of `IN`/`OUT` (R53). -/
def writeBit (w : Word) : Bool := w.getLsbD 5

/-- `w[7:0]` as the signed value of `sext_16(w[7:0])`, in [-128, 127] (R54). -/
def imm8Field (w : Word) : Int := (w.extractLsb' 0 8).toInt

/-- The condition a `flag` field selects (R55). -/
def condOfFlag (f : BitVec 2) : Cond :=
  if f = 0 then .always else if f = 1 then .less else if f = 2 then .equal else .greater

/-! ## Decode (R58) -/

/-- `Decode(w)` (R58). Bits in no field are not looked at (R57). The last arm is the defensive one of
R59 and R182; a 4-bit opcode never takes it. -/
def decode (w : Word) : Except DecodeReject Instr :=
  let t := field3 w 9
  let a := field3 w 6
  let b := field3 w 3
  match (opcodeField w).toNat with
  | 0 => .ok .nop
  | 1 => .ok (.load t b)
  | 2 => .ok (.store a b)
  | 3 => .ok (.add t a b)
  | 4 => .ok (.addi t (imm8Field w))
  | 5 => .ok (.sub t a b)
  | 6 => .ok (.and t a b)
  | 7 => .ok (.xor t a b)
  | 8 => .ok (.j t (condOfFlag (selField w)) a b)
  | 9 => .ok (.jal t (condOfFlag (selField w)) a b)
  | 10 => .ok (.ssp a)
  | 11 => .ok (.set t (imm8Field w))
  | 12 => .ok .ret
  | 13 =>
    if selField w = 0 then .ok (.sftLeft t a b)
    else if selField w = 1 then .ok (.sftLogicalRight t a b)
    else if selField w = 2 then .ok (.sftArithRight t a b)
    else .ok (.sftInvalid t a b)
  | 14 => if writeBit w then .ok (.outPort t (field3 w 6)) else .ok (.inPort t (field3 w 6))
  | 15 => .ok .halt
  | _ => .error .illegalOpcode

/-- The decoder on a number of any width: above 16 bits there is no assigned opcode, so the word is
refused by name (60_exceptions.md R182: a wider word type must fail loudly). -/
def decodeBits (n : Nat) : Except DecodeReject Instr :=
  if n < 65536 then decode (BitVec.ofNat 16 n) else .error .illegalOpcode

/-- The instruction the decoder reads from an opcode-table word of `nbits` bits, the bits above them 0.
The one word of an instruction is its 16-bit cell; there is no byte order (20_memory.md R31). -/
def decodeTableWord (nbits w : Nat) : Option Instr :=
  match decodeBits (w % 2 ^ nbits) with
  | .ok i => some i
  | .error _ => none

/-! ## Encode (R61) -/

/-- The `flag` value of a condition (R55). -/
def Cond.flag : Cond → Nat
  | .always => 0
  | .less => 1
  | .equal => 2
  | .greater => 3

/-- A field value shifted to its place in the word (R61). -/
def place (v lo : Nat) : Word := BitVec.ofNat 16 v <<< lo

/-- `imm mod 256` at bits [7:0] (R61). -/
def placeImm8 (imm : Int) : Word := (BitVec.ofInt 8 imm).setWidth 16

/-- `Encode(i)`: the bitwise OR of the opcode and each operand in its field, all other bits 0 (R61).
`sftInvalid` has no row in R61; its word is the table's match `0xD006` with the operand fields (log 10).
`J` and `JAL` at flag 0 keep the `a` and `b` given, which R61's note sets to 0 (DEDUCED, log 38). -/
def encode : Instr → Word
  | .nop => 0x0000
  | .load t b => 0x1000 ||| place t 9 ||| place b 3
  | .store a b => 0x2000 ||| place a 6 ||| place b 3
  | .add t a b => 0x3000 ||| place t 9 ||| place a 6 ||| place b 3
  | .addi t imm => 0x4000 ||| place t 9 ||| placeImm8 imm
  | .sub t a b => 0x5000 ||| place t 9 ||| place a 6 ||| place b 3
  | .and t a b => 0x6000 ||| place t 9 ||| place a 6 ||| place b 3
  | .xor t a b => 0x7000 ||| place t 9 ||| place a 6 ||| place b 3
  | .j t f a b => 0x8000 ||| place t 9 ||| place a 6 ||| place b 3 ||| place f.flag 1
  | .jal t f a b => 0x9000 ||| place t 9 ||| place a 6 ||| place b 3 ||| place f.flag 1
  | .ssp a => 0xA000 ||| place a 6
  | .set t imm => 0xB000 ||| place t 9 ||| placeImm8 imm
  | .ret => 0xC000
  | .sftLeft t a b => 0xD000 ||| place t 9 ||| place a 6 ||| place b 3
  | .sftLogicalRight t a b => 0xD002 ||| place t 9 ||| place a 6 ||| place b 3
  | .sftArithRight t a b => 0xD004 ||| place t 9 ||| place a 6 ||| place b 3
  | .sftInvalid t a b => 0xD006 ||| place t 9 ||| place a 6 ||| place b 3
  | .inPort t p => 0xE000 ||| place t 9 ||| place p 6
  | .outPort t p => 0xE020 ||| place t 9 ||| place p 6
  | .halt => 0xF000

/-! ## The opcode table (R56) -/

/-- One row of spec/opcode_table.json: a word `w` belongs to it when `w & mask = value`. -/
structure OpcodeRow where
  mnemonic : String
  value : Word
  mask : Word
  deriving DecidableEq, Repr

/-- The rows of opcodes 0 to 10. -/
def opcodeRowsLow : List OpcodeRow :=
  [⟨"NOP", 0x0000, 0xF000⟩, ⟨"LOAD", 0x1000, 0xF000⟩, ⟨"STORE", 0x2000, 0xF000⟩,
   ⟨"ADD", 0x3000, 0xF000⟩, ⟨"ADDI", 0x4000, 0xF000⟩, ⟨"SUB", 0x5000, 0xF000⟩,
   ⟨"AND", 0x6000, 0xF000⟩, ⟨"XOR", 0x7000, 0xF000⟩, ⟨"J", 0x8000, 0xF000⟩,
   ⟨"JAL", 0x9000, 0xF000⟩, ⟨"SSP", 0xA000, 0xF000⟩]

/-- The rows of opcodes 11 to 15. -/
def opcodeRowsHigh : List OpcodeRow :=
  [⟨"SET", 0xB000, 0xF000⟩, ⟨"RET", 0xC000, 0xF000⟩, ⟨"SFT.LEFT", 0xD000, 0xF006⟩,
   ⟨"SFT.LOGICAL_RIGHT", 0xD002, 0xF006⟩, ⟨"SFT.ARITH_RIGHT", 0xD004, 0xF006⟩,
   ⟨"SFT.INVALID", 0xD006, 0xF006⟩, ⟨"IN", 0xE000, 0xF020⟩, ⟨"OUT", 0xE020, 0xF020⟩,
   ⟨"HALT", 0xF000, 0xF000⟩]

/-- The 20 rows of the opcode table (R56), in its order. -/
def opcodeRows : List OpcodeRow := opcodeRowsLow ++ opcodeRowsHigh

/-- The bits that are in some field of the word's format, the opcode among them (R52): all other bits
are ignored (R57). -/
def fieldMask (w : Word) : Word :=
  match (opcodeField w).toNat with
  | 1 => 0xFE38
  | 2 => 0xF1F8
  | 3 | 5 | 6 | 7 => 0xFFF8
  | 4 | 11 => 0xFEFF
  | 8 | 9 | 13 => 0xFFFE
  | 10 => 0xF1C0
  | 14 => 0xFFE0
  | _ => 0xF000

end Sys2Proof
end

