-- ==== Sys2Proof/Machine/Operands.lean ====
section
/-! DEFINITION. What an instruction makes of its operands: immediates, addresses, targets, distances, ALU results. -/

namespace Sys2Proof.Machine

/-! ## Operand forms -/

/-- `sext_16(w[7:0])` of an immediate whose signed value is `imm` (30_encoding.md R54). -/
def immWord (imm : Int) : Word := wrap16 imm

/-- The address a register holds: its unsigned reading (20_memory.md R34, decision D5; log 15). -/
def effectiveAddress (v : Word) : Nat := u16 v

/-- The stack pointer a register holds: its unsigned reading (42_control_flow.md R133, decision D6; log 16). -/
def stackPointerOf (v : Word) : Nat := u16 v

/-- The target a register holds: its signed reading (42_control_flow.md R137, decision D3; log 14). -/
def jumpTarget (v : Word) : Int := s16 v

/-- Where `RET` goes from the cell it popped: one past its signed reading (42_control_flow.md R134, R137; log 14). -/
def returnTarget (v : Word) : Int := s16 v + 1

/-- The shift distance a register holds, or none outside 0 to 15 (43_shift.md R150, R155; log 23). -/
def shiftDistance (v : Word) : Option Nat :=
  if 0 ≤ s16 v ∧ s16 v ≤ 15 then some (s16 v).toNat else none

/-- The word a call pushes: its own index (42_control_flow.md R132). -/
def returnWord (pc : Int) : Word := wrap16 pc

/-! ## ALU results: computed exactly, then wrapped to 16 bits (41_arith_logic.md R110, 43_shift.md) -/

/-- `wrap16(u16(p) + u16(q))` (R111). -/
def addWords (p q : Word) : Word := wrap16 (u16 p + u16 q)

/-- `wrap16(u16(p) - u16(q))` (R113; the operand order is decision D11, log 21). -/
def subWords (p q : Word) : Word := wrap16 ((u16 p : Int) - u16 q)

/-- `p & q` (R114). -/
def andWords (p q : Word) : Word := p &&& q

/-- `p ^ q` (R115). -/
def xorWords (p q : Word) : Word := p ^^^ q

/-- `wrap16(u16(v) * 2^n)` (R151). -/
def shiftLeft (v : Word) (n : Nat) : Word := wrap16 (u16 v * 2 ^ n)

/-- `wrap16(floor(u16(v) / 2^n))` (R152). -/
def shiftLogicalRight (v : Word) (n : Nat) : Word := wrap16 (u16 v / 2 ^ n : Nat)

/-- `wrap16(floor(s16(v) / 2^n))`, rounding toward minus infinity (R153). -/
def shiftArithRight (v : Word) (n : Nat) : Word := wrap16 (Int.fdiv (s16 v) (2 ^ n))

end Sys2Proof.Machine
end

