-- ==== Sys2Proof/Config.lean ====
section
/-! DEFINITION. The fixed sizes of the machine and the range of its one open size (00_scope.md R4). -/

namespace Sys2Proof.Config

/-- `MEM_SIZE`: cells of data memory (R4, 10_state.md R16). -/
abbrev memSize : Nat := 65536

/-- The largest admitted `ISTORE_SIZE` (R4, decision D1); the smallest is 1. -/
abbrev maxStoreSize : Nat := 32768

end Sys2Proof.Config
end

