-- ==== Sys2Proof/Machine/Memory.lean ====
section
/-! DEFINITION. An address space of 16-bit cells as a list of listed cells in one canonical form. -/

namespace Sys2Proof.Machine

/-- What a cell of data memory that is not listed reads as. The spec leaves the launch contents `MEM_INIT`
open (10_state.md R25, decision D4), and any launch contents can be listed. DESIGN CHOICE (log 2): 0; unsafe. -/
def Memory.unlisted : Word := 0

/-- What a cell of the instruction store that is not listed reads as: "indices beyond the loaded length
remain zero, i.e. `NOP`" (10_state.md R25, 70_reset_and_hazards.md R212). -/
def Memory.unloaded : Word := 0

/-- The cell at index `a`, where `d` is what an unlisted cell reads as. -/
def Memory.read (d : Word) : List Cell → Nat → Word
  | [], _ => d
  | (k, v) :: rest, a => if k = a then v else Memory.read d rest a

/-- Lists the cell `(a, v)` before the first listed index that is not below `a`. -/
def Memory.insert (a : Nat) (v : Word) : List Cell → List Cell
  | [] => [(a, v)]
  | (k, u) :: rest => if k < a then (k, u) :: Memory.insert a v rest else (a, v) :: (k, u) :: rest

/-- Removes every listed cell of index `a`. -/
def Memory.erase (a : Nat) : List Cell → List Cell
  | [] => []
  | (k, u) :: rest => if k = a then Memory.erase a rest else (k, u) :: Memory.erase a rest

/-- Sets the cell at index `a` to `v`, keeping the canonical form: a cell that holds what an unlisted cell
reads as is not listed. -/
def Memory.write (d : Word) (m : List Cell) (a : Nat) (v : Word) : List Cell :=
  if v = d then Memory.erase a m else Memory.insert a v (Memory.erase a m)

/-- The canonical form of a space of `size` cells: indices strictly rising and below `size`, and no cell
listed that holds what an unlisted one reads as. -/
abbrev Memory.wf (d : Word) (size : Nat) (m : List Cell) : Prop :=
  m.Pairwise (fun c e => c.1 < e.1) ∧ ∀ c ∈ m, c.1 < size ∧ c.2 ≠ d

/-- The listed cells of a word sequence placed from index `k` on: word 0 at index `k`, word 1 at `k + 1`, … (R212). -/
def Memory.load (d : Word) : Nat → List Word → List Cell
  | _, [] => []
  | k, w :: rest => if w = d then Memory.load d (k + 1) rest else (k, w) :: Memory.load d (k + 1) rest

end Sys2Proof.Machine
end

