-- ==== Sys2Proof/Machine/Launch.lean ====
section
/-! DEFINITION. The open parameters of a run: launch values, store size and the loaded program (00_scope.md R4). -/

namespace Sys2Proof.Machine

/-- The values chosen before the first step (00_scope.md R4, 70_reset_and_hazards.md R212). Every one of them
is open in the spec. -/
structure Launch where
  /-- `REG_INIT`: the eight general registers -/
  regInit : Vector Word 8
  /-- `MEM_INIT`: the data memory's launch contents, as listed cells -/
  memInit : List Cell
  /-- `IO_INIT`: the eight IO ports -/
  ioInit : Vector Word 8
  /-- `ISTORE_SIZE` -/
  storeSize : Nat
  /-- the word sequence the wrapper loads from index 0 on -/
  program : List Word
  deriving DecidableEq, Repr

/-- The parameters `State.reset` is made with. The spec states none of these values (R4, R25).
DESIGN CHOICE (log 1, 2, 3, 4): registers, memory and ports 0, the largest admitted store, no program; unsafe. -/
def Launch.atReset : Launch where
  regInit := Vector.replicate 8 0
  memInit := []
  ioInit := Vector.replicate 8 0
  storeSize := 32768
  program := []

end Sys2Proof.Machine
end

