-- ==== Sys2Proof/Machine/State.lean ====
section
/-! DEFINITION. The machine state (10_state.md R10), the reasons a step can stop, and the state after reset. -/

namespace Sys2Proof.Machine

/-- The causes a fault can have (60_exceptions.md R180). A fault of the spec is a state of the machine, not a
`Fault` of the host's interface (log 7). -/
inductive FaultCause where
  /-- the opcode is none of 0..15: unreachable (R182) -/
  | illegalOpcode
  /-- `SFT` with operator 3 (R183) -/
  | invalidShiftOperator
  /-- `pc` outside the instruction store at the start of a step (R184) -/
  | fetchOutOfRange
  /-- a taken `JAL` with `sp = 65536` (R185) -/
  | stackOverflow
  /-- `RET` with `sp = 0` (R186) -/
  | stackUnderflow
  /-- `SFT` with a valid operator and a distance below 0 or above 15 (R187) -/
  | shiftDistanceOutOfRange
  deriving DecidableEq, Repr

/-- The run status (10_state.md R19). -/
inductive Status where
  | running
  | halted
  /-- `Faulted(cause, pc, word)`; the word is absent for `FetchOutOfRange` (60_exceptions.md R188) -/
  | faulted (cause : FaultCause) (pc : Int) (word : Option Word)
  deriving DecidableEq, Repr

/-- Why the machine has no next state (10_state.md R19: an engine whose status is not `Running` has no step). -/
inductive Fault where
  /-- Raised by `step` when the status is `Halted`. Safe: the spec gives no step there. -/
  | engineHalted
  /-- Raised by `step` when the status is `Faulted`. Safe: the spec gives no step there. -/
  | engineFaulted
  deriving DecidableEq, Repr

/-- Why the model gives an instruction no meaning. -/
inductive Refusal where
  /-- An arm of `exec` without a meaning; no arm of this model uses it. Safe. -/
  | notModelled (mnemonic : String)
  deriving DecidableEq, Repr

/-- The complete state (10_state.md R10), with the instruction store and its size, which the spec makes
parameters of the run (R15) and `step` finds here (log 5). -/
structure State where
  /-- the general registers (R11) -/
  x : Vector Word 8
  /-- the program counter, a mathematical integer (R13) -/
  pc : Int
  /-- the stack pointer, an integer in [0, 65536] (R14) -/
  sp : Fin 65537
  /-- the data memory's listed cells (R16) -/
  mem : List Cell
  /-- the IO ports (R17) -/
  io : Vector Word 8
  /-- the output events, oldest first (R18) -/
  out : List Int
  /-- the run status (R19) -/
  status : Status
  /-- the instruction store's listed words (R15) -/
  store : List Cell
  /-- `ISTORE_SIZE` (00_scope.md R4) -/
  storeSize : Nat
  deriving DecidableEq, Repr

/-- The fresh state a reset creates for the given launch parameters (70_reset_and_hazards.md R210, 10_state.md R25). -/
def State.launch (l : Launch) : State where
  x := l.regInit
  pc := 0
  sp := 0
  mem := l.memInit
  io := l.ioInit
  out := []
  status := .running
  store := Memory.load Memory.unloaded 0 l.program
  storeSize := l.storeSize

/-- The state right after reset with no program loaded, at the launch values named in the log (log 1, 2, 3, 4, 5). -/
def State.reset : State := State.launch Launch.atReset

end Sys2Proof.Machine
end

