-- ==== Sys2Proof/Machine/Ops.lean ====
section
/-! DEFINITION. The named operations over registers, memory, ports, stack and status; fault entry; the fetch. -/

namespace Sys2Proof.Machine

/-! ## Registers (10_state.md R11) -/

/-- `x[r]` (R8). -/
def State.readReg (s : State) (r : RegIdx) : Word := s.x[r.val]

/-- `x[r] <- v` (R8). No register is hard-wired (R11). -/
def State.writeReg (s : State) (r : RegIdx) (v : Word) : State := { s with x := s.x.set r.val v }

/-! ## Data memory (20_memory.md R33) -/

/-- `MemRead(a, 1)` (R8). -/
def State.readMem (s : State) (a : Nat) : Word := Memory.read Memory.unlisted s.mem a

/-- `MemWrite(a, 1, v)` (R8). -/
def State.writeMem (s : State) (a : Nat) (v : Word) : State :=
  { s with mem := Memory.write Memory.unlisted s.mem a v }

/-! ## IO ports and output events (10_state.md R17, R18) -/

/-- `IoRead(p)`: the port's value; the read changes nothing (R17). -/
def State.readPort (s : State) (p : Port) : Word := s.io[p.val]

/-- `IoWrite(p, v)` (R8). -/
def State.writePort (s : State) (p : Port) (v : Word) : State := { s with io := s.io.set p.val v }

/-- `Emit(v)`: appends the signed reading of `v` to the output events (R8, R18). -/
def State.emit (s : State) (v : Word) : State := { s with out := s.out ++ [s16 v] }

/-! ## Program counter (10_state.md R13) -/

/-- `pc <- n`. No wrap-around (R13). -/
def State.jumpTo (s : State) (n : Int) : State := { s with pc := n }

/-- `pc <- pc + 1`. -/
def State.advance (s : State) : State := s.jumpTo (s.pc + 1)

/-! ## Instruction store and fetch (00_scope.md R7, 10_state.md R15) -/

/-- `IStore[k]`. -/
def State.readStore (s : State) (k : Nat) : Word := Memory.read Memory.unloaded s.store k

/-- The word at `pc`, or none when `pc` is outside `[0, ISTORE_SIZE)` (R7, 60_exceptions.md R184). -/
def State.fetchWord (s : State) : Option Word :=
  if 0 ≤ s.pc ∧ s.pc < s.storeSize then some (s.readStore s.pc.toNat) else none

/-- The state with `w` stored where `pc` points, for a `pc` inside the store. -/
def State.storeWordAtPc (s : State) (w : Word) : State :=
  { s with store := Memory.write Memory.unloaded s.store s.pc.toNat w }

/-! ## Taking a fault (60_exceptions.md R188) -/

/-- The code of a cause (R180). -/
def FaultCause.code : FaultCause → Nat
  | .illegalOpcode => 1
  | .invalidShiftOperator => 2
  | .fetchOutOfRange => 3
  | .stackOverflow => 4
  | .stackUnderflow => 5
  | .shiftDistanceOutOfRange => 6

/-- `raise <Fault>`: `status <- Faulted(cause, pc, word)` and nothing else (R188). `pc` is still that of the
start of the step, so the word fetched is the one at `pc`; it is absent when there was none to fetch.
There is no return from a fault (R190), so no operation stands beside this one. -/
def State.raise (s : State) (c : FaultCause) : State :=
  { s with status := .faulted c s.pc s.fetchWord }

/-- `status <- Halted` and nothing else (45_system.md R171). -/
def State.setHalted (s : State) : State := { s with status := .halted }

/-! ## The call stack in data memory (42_control_flow.md R132, R134) -/

/-- The stack pointer set to a 16-bit unsigned value (R133). -/
def State.setSp (s : State) (n : Nat) : State := { s with sp := Fin.ofNat 65537 n }

/-- `Mem[sp] <- v; sp <- sp + 1`, or none when `sp = 65536` (R132, 60_exceptions.md R185). -/
def State.push (s : State) (v : Word) : Option State :=
  if s.sp.val < 65536 then some ((s.writeMem s.sp.val v).setSp (s.sp.val + 1)) else none

/-- `sp <- sp - 1` with the cell then at `sp`, or none when `sp = 0`; the cell keeps its value (R134,
60_exceptions.md R186). -/
def State.pop (s : State) : Option (Word × State) :=
  if s.sp.val = 0 then none else some (s.readMem (s.sp.val - 1), s.setSp (s.sp.val - 1))

end Sys2Proof.Machine
end

