-- ==== Sys2Proof/Machine/Arith.lean ====
section
/-! DEFINITION. ADD, ADDI, SUB, AND, XOR, SET (41_arith_logic.md). -/

namespace Sys2Proof.Machine

/-- Writes an ALU result to the destination and advances: the whole effect of this family (R110). -/
def aluResult (t : RegIdx) (v : Word) (s : State) : Host.Outcome State Fault Refusal :=
  .next (s.writeReg t v).advance

/-- `ADD rT rA rB` (R111). -/
def execAdd (t a b : RegIdx) (s : State) : Host.Outcome State Fault Refusal :=
  aluResult t (addWords (s.readReg a) (s.readReg b)) s

/-- `ADDI rT imm`: adds to `rT` itself (R112, decision D10; log 20). -/
def execAddi (t : RegIdx) (imm : Int) (s : State) : Host.Outcome State Fault Refusal :=
  aluResult t (addWords (s.readReg t) (immWord imm)) s

/-- `SUB rT rA rB`: regA minus regB (R113, decision D11; log 21). -/
def execSub (t a b : RegIdx) (s : State) : Host.Outcome State Fault Refusal :=
  aluResult t (subWords (s.readReg a) (s.readReg b)) s

/-- `AND rT rA rB` (R114). -/
def execAnd (t a b : RegIdx) (s : State) : Host.Outcome State Fault Refusal :=
  aluResult t (andWords (s.readReg a) (s.readReg b)) s

/-- `XOR rT rA rB` (R115). -/
def execXor (t a b : RegIdx) (s : State) : Host.Outcome State Fault Refusal :=
  aluResult t (xorWords (s.readReg a) (s.readReg b)) s

/-- `SET rT imm`: all 16 bits of `rT` are written (R116). -/
def execSet (t : RegIdx) (imm : Int) (s : State) : Host.Outcome State Fault Refusal :=
  aluResult t (immWord imm) s

end Sys2Proof.Machine
end

