-- ==== Sys2Proof/Machine/Flags.lean ====
section
/-! DEFINITION. The condition of `J` and `JAL`. The machine has no flags register (10_state.md R21): the comparison
is made by the jump itself and its outcome is stored nowhere. -/

namespace Sys2Proof.Machine

/-- `Taken(flag, a, b)` on the two register values (42_control_flow.md R130). The order comparisons are signed
(decision D12, log 22). -/
def taken : Cond → Word → Word → Bool
  | .always, _, _ => true
  | .less, p, q => decide (s16 p < s16 q)
  | .equal, p, q => decide (p = q)
  | .greater, p, q => decide (s16 p > s16 q)

end Sys2Proof.Machine
end

