-- ==== Sys2Proof/Machine/Control.lean ====
section
/-! DEFINITION. J, JAL, SSP, RET (42_control_flow.md). -/

namespace Sys2Proof.Machine

/-- `J rT f rA rB`: `pc <- s16(x[t])` if taken, else `pc + 1` (R131). -/
def execJ (t : RegIdx) (f : Cond) (a b : RegIdx) (s : State) : Host.Outcome State Fault Refusal :=
  .next (if taken f (s.readReg a) (s.readReg b) then s.jumpTo (jumpTarget (s.readReg t)) else s.advance)

/-- The taken `JAL`: pushes its own index, then jumps; `StackOverflow` when there is no cell to push to (R132). -/
def callTo (t : RegIdx) (s : State) : State :=
  match s.push (returnWord s.pc) with
  | some s' => s'.jumpTo (jumpTarget (s.readReg t))
  | none => s.raise .stackOverflow

/-- `JAL rT f rA rB`: a call if taken, else `pc + 1` with nothing pushed (R132, decision D8; log 18). -/
def execJal (t : RegIdx) (f : Cond) (a b : RegIdx) (s : State) : Host.Outcome State Fault Refusal :=
  .next (if taken f (s.readReg a) (s.readReg b) then callTo t s else s.advance)

/-- `SSP rA`: `sp <- u16(x[a])` (R133). -/
def execSsp (a : RegIdx) (s : State) : Host.Outcome State Fault Refusal :=
  .next (s.setSp (stackPointerOf (s.readReg a))).advance

/-- `RET`: pops, then `pc <- s16(cell) + 1`; `StackUnderflow` when `sp = 0` (R134). -/
def execRet (s : State) : Host.Outcome State Fault Refusal :=
  .next (match s.pop with
    | some (v, s') => s'.jumpTo (returnTarget v)
    | none => s.raise .stackUnderflow)

end Sys2Proof.Machine
end

