-- ==== Sys2Proof/Machine/Io.lean ====
section
/-! DEFINITION. IN and OUT (44_io.md). -/

namespace Sys2Proof.Machine

/-- `IN rT p`: `x[t] <- IoRead(p)`; no event, the port keeps its value (R160). -/
def execIn (t : RegIdx) (p : Port) (s : State) : Host.Outcome State Fault Refusal :=
  .next (s.writeReg t (s.readPort p)).advance

/-- `OUT rT p`: `IoWrite(p, x[t])` and `Emit(x[t])` (R161). -/
def execOut (t : RegIdx) (p : Port) (s : State) : Host.Outcome State Fault Refusal :=
  .next ((s.writePort p (s.readReg t)).emit (s.readReg t)).advance

end Sys2Proof.Machine
end

