-- ==== Sys2Proof/Machine/LoadStore.lean ====
section
/-! DEFINITION. LOAD and STORE (40_load_store.md). What the two do is the spec's decision D9 (log 19). -/

namespace Sys2Proof.Machine

/-- `LOAD rT rB`: `x[t] <- MemRead(u16(x[b]), 1)` (R100). -/
def execLoad (t b : RegIdx) (s : State) : Host.Outcome State Fault Refusal :=
  .next ((s.writeReg t (s.readMem (effectiveAddress (s.readReg b)))).advance)

/-- `STORE rA rB`: `MemWrite(u16(x[b]), 1, x[a])` (R101). -/
def execStore (a b : RegIdx) (s : State) : Host.Outcome State Fault Refusal :=
  .next ((s.writeMem (effectiveAddress (s.readReg b)) (s.readReg a)).advance)

end Sys2Proof.Machine
end

