-- ==== Sys2Proof/Machine/Shift.lean ====
section
/-! DEFINITION. SFT with its operators (43_shift.md). -/

namespace Sys2Proof.Machine

/-- The common part of `SFT`: `x[t] <- f(x[a], n)` for the distance `n` in `x[b]`; outside 0 to 15 the step raises
`ShiftDistanceOutOfRange` and changes nothing else (R150, R155). -/
def shiftWith (f : Word → Nat → Word) (t a b : RegIdx) (s : State) : Host.Outcome State Fault Refusal :=
  .next (match shiftDistance (s.readReg b) with
    | some n => (s.writeReg t (f (s.readReg a) n)).advance
    | none => s.raise .shiftDistanceOutOfRange)

/-- `SFT rT << rA rB` (R151). -/
def execSftLeft (t a b : RegIdx) (s : State) : Host.Outcome State Fault Refusal :=
  shiftWith shiftLeft t a b s

/-- `SFT rT >>> rA rB` (R152). -/
def execSftLogicalRight (t a b : RegIdx) (s : State) : Host.Outcome State Fault Refusal :=
  shiftWith shiftLogicalRight t a b s

/-- `SFT rT >> rA rB` (R153). -/
def execSftArithRight (t a b : RegIdx) (s : State) : Host.Outcome State Fault Refusal :=
  shiftWith shiftArithRight t a b s

/-- Opcode 13 with operator 3: `InvalidShiftOperator`, whatever the fields and the registers hold; the distance is
not examined (R154, R183, R189). -/
def execSftInvalid (_t _a _b : RegIdx) (s : State) : Host.Outcome State Fault Refusal :=
  .next (s.raise .invalidShiftOperator)

end Sys2Proof.Machine
end

