-- ==== Sys2Proof/Machine/System.lean ====
section
/-! DEFINITION. NOP and HALT (45_system.md). -/

namespace Sys2Proof.Machine

/-- `NOP`: `pc <- pc + 1` (R170). -/
def execNop (s : State) : Host.Outcome State Fault Refusal :=
  .next s.advance

/-- `HALT`: `status <- Halted`, `pc` unchanged (R171, decision D14; log 24). -/
def execHalt (s : State) : Host.Outcome State Fault Refusal :=
  .next s.setHalted

end Sys2Proof.Machine
end

