-- ==== Sys2Proof/Machine/Dispatch.lean ====
section
/-! DEFINITION. One arm per instruction: the meaning each constructor has. -/

namespace Sys2Proof.Machine

/-- `Execute(ins)` (00_scope.md R7). The run status is not looked at here but by `step` (log 12). -/
def exec (i : Instr) (s : State) : Host.Outcome State Fault Refusal :=
  match i with
  | .nop => Sys2Proof.Machine.execNop s
  | .load t b => Sys2Proof.Machine.execLoad t b s
  | .store a b => Sys2Proof.Machine.execStore a b s
  | .add t a b => Sys2Proof.Machine.execAdd t a b s
  | .addi t imm => Sys2Proof.Machine.execAddi t imm s
  | .sub t a b => Sys2Proof.Machine.execSub t a b s
  | .and t a b => Sys2Proof.Machine.execAnd t a b s
  | .xor t a b => Sys2Proof.Machine.execXor t a b s
  | .j t f a b => Sys2Proof.Machine.execJ t f a b s
  | .jal t f a b => Sys2Proof.Machine.execJal t f a b s
  | .ssp a => Sys2Proof.Machine.execSsp a s
  | .set t imm => Sys2Proof.Machine.execSet t imm s
  | .ret => Sys2Proof.Machine.execRet s
  | .sftLeft t a b => Sys2Proof.Machine.execSftLeft t a b s
  | .sftLogicalRight t a b => Sys2Proof.Machine.execSftLogicalRight t a b s
  | .sftArithRight t a b => Sys2Proof.Machine.execSftArithRight t a b s
  | .sftInvalid t a b => Sys2Proof.Machine.execSftInvalid t a b s
  | .inPort t p => Sys2Proof.Machine.execIn t p s
  | .outPort t p => Sys2Proof.Machine.execOut t p s
  | .halt => Sys2Proof.Machine.execHalt s

end Sys2Proof.Machine
end

