-- ==== Sys2Proof/Machine/Step.lean ====
section
/-! DEFINITION. One step of the engine (00_scope.md R7) and the placing of a word where it fetches next. -/

namespace Sys2Proof.Machine

/-- Decode and execute a fetched word. `InvalidShiftOperator` is raised by the meaning of the row it decodes to;
`IllegalOpcode` by the decoder's refusal (60_exceptions.md R182, R189). -/
def runWord (w : Word) (s : State) : Host.Outcome State Fault Refusal :=
  match decode w with
  | .ok i => exec i s
  | .error .illegalOpcode => .next (s.raise .illegalOpcode)

/-- `Step(S, IStore)` (R7): no step unless `Running` (10_state.md R19); `FetchOutOfRange` when `pc` is outside the
store (60_exceptions.md R184); else the fetched word is decoded and executed. -/
def step (s : State) : Host.Outcome State Fault Refusal :=
  match s.status with
  | .halted => .fault .engineHalted
  | .faulted _ _ _ => .fault .engineFaulted
  | .running =>
    match s.fetchWord with
    | none => .next (s.raise .fetchOutOfRange)
    | some w => runWord w s

/-- `s` with the opcode-table word `w` of `nbits` bits stored at the index `step` fetches from, `pc`. Where `pc` is
outside the store there is no such cell and `s` is unchanged (log 5). -/
def State.withFetchWord (s : State) (nbits w : Nat) : State :=
  if 0 ≤ s.pc ∧ s.pc < s.storeSize then s.storeWordAtPc (BitVec.ofNat 16 (w % 2 ^ nbits)) else s

end Sys2Proof.Machine
end

