-- ==== Sys2Proof/Safety.lean ====
section
/-! DEFINITION. The words claims are written in: the invariant of the state, the parts a step may change, what the engine
is about to run, and when each fault of the spec arises. -/

namespace Sys2Proof.Machine

/-! ## Launch and invariant -/

/-- The launch parameters the spec admits: a store size of [1, 32768], a program that fits the store, and data memory
in canonical form (00_scope.md R4, 70_reset_and_hazards.md R212). -/
def Launch.Admitted (l : Launch) : Prop :=
  1 ≤ l.storeSize ∧ l.storeSize ≤ Config.maxStoreSize ∧ l.program.length ≤ l.storeSize ∧
    Memory.wf Memory.unlisted Config.memSize l.memInit

/-- What every state a run can reach meets. -/
structure State.Inv (s : State) : Prop where
  /-- data memory is in canonical form, with indices below 65536 (10_state.md R16) -/
  mem_wf : Memory.wf Memory.unlisted Config.memSize s.mem
  /-- the store is in canonical form, with indices below its size (10_state.md R15) -/
  store_wf : Memory.wf Memory.unloaded s.storeSize s.store
  /-- the store size is an admitted one (00_scope.md R4) -/
  size_admitted : 1 ≤ s.storeSize ∧ s.storeSize ≤ Config.maxStoreSize
  /-- `pc` lies in [-32768, 32768] (10_state.md R13) -/
  pc_range : -32768 ≤ s.pc ∧ s.pc ≤ 32768
  /-- every output event is a signed 16-bit value (10_state.md R18) -/
  out_range : ∀ n ∈ s.out, -32768 ≤ n ∧ n ≤ 32767
  /-- a fault recorded is one that can occur, at this `pc`, with the word at `pc`, absent exactly for
  `FetchOutOfRange` (60_exceptions.md R182, R188) -/
  fault_record : ∀ c p w, s.status = .faulted c p w →
    c ≠ .illegalOpcode ∧ p = s.pc ∧ w = s.fetchWord ∧ (w = none ↔ c = .fetchOutOfRange)

/-! ## Frames -/

/-- The parts of the machine's state, as a program or the host can tell them apart. -/
inductive Part where
  | reg (r : RegIdx)
  | pc
  | sp
  | cell (a : Nat)
  | port (p : Port)
  | out
  | status
  | istore
  deriving DecidableEq, Repr

/-- The two states agree on a part. -/
def State.SameAt (s s' : State) : Part → Prop
  | .reg r => s'.readReg r = s.readReg r
  | .pc => s'.pc = s.pc
  | .sp => s'.sp = s.sp
  | .cell a => s'.readMem a = s.readMem a
  | .port p => s'.readPort p = s.readPort p
  | .out => s'.out = s.out
  | .status => s'.status = s.status
  | .istore => (∀ k, s'.readStore k = s.readStore k) ∧ s'.storeSize = s.storeSize

/-- From `s` to `s'` no part outside the list has changed: every register, cell, port, `pc`, `sp`, `out`, the status
and the instruction store are as before unless listed. -/
def State.ChangesOnly (s s' : State) (parts : List Part) : Prop :=
  ∀ part, part ∉ parts → s.SameAt s' part

/-- `s'` is `s` after taking the fault `c`: the status records the cause, `pc` and the word at `pc`, and nothing else
has changed (60_exceptions.md R188). -/
def State.FaultsInto (s s' : State) (c : FaultCause) : Prop :=
  s'.status = .faulted c s.pc s.fetchWord ∧ s.ChangesOnly s' [.status]

/-! ## Instructions seen from a word and a state -/

/-- The low byte of a word as a two's-complement number, by the formula of 00_scope.md R8: `u(v) - 256` when bit 7 is 1. -/
def lowByteSigned (w : Word) : Int :=
  if w.toNat % 256 < 128 then ((w.toNat % 256 : Nat) : Int) else ((w.toNat % 256 : Nat) : Int) - 256

/-- The engine is running and the word at `pc` decodes to `i`. -/
def State.AboutToRun (s : State) (i : Instr) : Prop :=
  s.status = .running ∧ ∃ w, s.fetchWord = some w ∧ decode w = .ok i

/-- The register an instruction writes (10_state.md R12). -/
def destinationOf : Instr → Option RegIdx
  | .nop => none
  | .load t _ => some t
  | .store _ _ => none
  | .add t _ _ => some t
  | .addi t _ => some t
  | .sub t _ _ => some t
  | .and t _ _ => some t
  | .xor t _ _ => some t
  | .j _ _ _ _ => none
  | .jal _ _ _ _ => none
  | .ssp _ => none
  | .set t _ => some t
  | .ret => none
  | .sftLeft t _ _ => some t
  | .sftLogicalRight t _ _ => some t
  | .sftArithRight t _ _ => some t
  | .sftInvalid _ _ _ => none
  | .inPort t _ => some t
  | .outPort _ _ => none
  | .halt => none

/-- The condition of a `J` or `JAL` holds of the two registers (42_control_flow.md R130), as a proposition. -/
def State.CondHolds (s : State) (f : Cond) (a b : RegIdx) : Prop :=
  match f with
  | .always => True
  | .less => s16 (s.readReg a) < s16 (s.readReg b)
  | .equal => ∀ k < 16, (s.readReg a).getLsbD k = (s.readReg b).getLsbD k
  | .greater => s16 (s.readReg b) < s16 (s.readReg a)

/-- The instructions after which `pc` is not `pc + 1`: a taken `J` or `JAL`, `RET` and `HALT` (10_state.md R13). -/
def Redirects (i : Instr) (s : State) : Prop :=
  i = .ret ∨ i = .halt ∨
    ∃ t f a b, (i = .j t f a b ∨ i = .jal t f a b) ∧ s.CondHolds f a b

/-- The distance register of an `SFT` with a valid operator. -/
def IsShiftBy (i : Instr) (b : RegIdx) : Prop :=
  ∃ t a, i = .sftLeft t a b ∨ i = .sftLogicalRight t a b ∨ i = .sftArithRight t a b

/-- When each fault arises, in a running state (the table of 60_exceptions.md R180). -/
def FaultCause.Arises (c : FaultCause) (s : State) : Prop :=
  match c with
  | .illegalOpcode => False
  | .invalidShiftOperator => ∃ w, s.fetchWord = some w ∧ w &&& 0xF006 = 0xD006
  | .fetchOutOfRange => s.pc < 0 ∨ (s.storeSize : Int) ≤ s.pc
  | .stackOverflow => ∃ t f a b, s.AboutToRun (.jal t f a b) ∧ s.CondHolds f a b ∧ s.sp.val = 65536
  | .stackUnderflow => s.AboutToRun .ret ∧ s.sp.val = 0
  | .shiftDistanceOutOfRange => ∃ i b, s.AboutToRun i ∧ IsShiftBy i b ∧
      (s16 (s.readReg b) < 0 ∨ 15 < s16 (s.readReg b))

end Sys2Proof.Machine
end

