-- ==== Sys2Proof/Certificates/Slice0/Obligations.lean ====
section
/-! DEFINITION. The statements for the provers. "log n" is notes/assumptions/n.md; "Dn" is a decision of spec/92_eei_decisions.md
that the spec marks as its own. -/

open Sys2Proof Sys2Proof.Machine

/-! ## Encoding (30_encoding.md) -/

/-- The table of 95_test_vectors.md 2.8: one word per mnemonic of the assembler, written out from R53 and R61. -/
def Obligations.DecodeOfWrittenWords : Prop :=
  decode 0x0000 = .ok .nop ∧ decode 0x1C18 = .ok (.load 6 3) ∧ decode 0x20B8 = .ok (.store 2 7) ∧
    decode 0x3E88 = .ok (.add 7 2 1) ∧ decode 0x4E64 = .ok (.addi 7 100) ∧ decode 0x5050 = .ok (.sub 0 1 2) ∧
    decode 0x6BB0 = .ok (.and 5 6 6) ∧ decode 0x7FF8 = .ok (.xor 7 7 7) ∧
    decode 0x8E56 = .ok (.j 7 .greater 1 2) ∧ decode 0x960C = .ok (.jal 3 .equal 0 1) ∧
    decode 0xA1C0 = .ok (.ssp 7) ∧ decode 0xBAF9 = .ok (.set 5 (-7)) ∧ decode 0xC000 = .ok .ret ∧
    decode 0xD40C = .ok (.sftArithRight 2 0 1) ∧ decode 0xE5C0 = .ok (.inPort 2 7) ∧
    decode 0xE3E0 = .ok (.outPort 1 7) ∧ decode 0xF000 = .ok .halt

/-- After 60_exceptions.md section 1: no 16-bit word is an illegal opcode, and no step ends in `IllegalOpcode`. Two clauses
are the model's own: that every word, those of opcode 13 with operator 3 included, decodes to an instruction (log 10, DESIGN
CHOICE: R58 raises `InvalidShiftOperator` at decode there), with operands in range (log 38 for flag 0), and that a wider
number is refused by this name (log 11, DEDUCED). -/
def Obligations.NoWordHasAnIllegalOpcode : Prop :=
  (∀ w : Word, ∃ i, decode w = .ok i ∧ i.wellFormed = true) ∧
    (∀ n, 65536 ≤ n → decodeBits n = .error .illegalOpcode) ∧
    ∀ s s' p w, step s = .next s' → s'.status ≠ .faulted .illegalOpcode p w

/-- 30_encoding.md section 5: the 20 rows partition the words, and the decoder gives each word the instruction of its row.
That the words of the row `SFT.INVALID` decode to an instruction too is the model's choice (log 10, DESIGN CHOICE: R58
raises `InvalidShiftOperator` at decode there). -/
def Obligations.EveryWordBelongsToTheRowItDecodesTo : Prop :=
  opcodeRows.length = 20 ∧ (opcodeRows.map OpcodeRow.mnemonic).Nodup ∧
    ∀ w : Word, ∃ i, decode w = .ok i ∧ (∃ row ∈ opcodeRows, row.mnemonic = i.mnemonic) ∧
      ∀ row ∈ opcodeRows, w &&& row.mask = row.value ↔ row.mnemonic = i.mnemonic

/-- 30_encoding.md section 6 (D17, log 27): two words that agree on the fields of their format decode alike. -/
def Obligations.DecodeIgnoresBitsInNoField : Prop :=
  ∀ w v : Word, v &&& fieldMask w = w &&& fieldMask w → decode v = decode w

/-- 30_encoding.md section 2: where each field stands, every one read as an unsigned number but `imm8`; bit 0 is in no
field but `imm8` (log 35: the rule's sentence on bit 0 overlooks `imm8`). -/
def Obligations.FieldsStandAtTheirBits : Prop :=
  ∀ w : Word,
    (opcodeField w).toNat = w.toNat / 4096 ∧ (field3 w 9).val = w.toNat / 512 % 8 ∧
      (field3 w 6).val = w.toNat / 64 % 8 ∧ (field3 w 3).val = w.toNat / 8 % 8 ∧
      (selField w).toNat = w.toNat / 2 % 4 ∧ (writeBit w = true ↔ w.toNat / 32 % 2 = 1) ∧
      imm8Field w = lowByteSigned w ∧
      (w.toNat / 4096 ≠ 4 → w.toNat / 4096 ≠ 11 → decode (w ^^^ 1) = decode w)

/-- R54: `imm8` is the low byte as a signed number, for `ADDI` and `SET` alike, and reaches 16 bits by sign extension;
`port` is `w[8:6]` as is. -/
def Obligations.ImmediateIsTheSignedLowByte : Prop :=
  (∀ w : Word, -128 ≤ lowByteSigned w ∧ lowByteSigned w ≤ 127 ∧
      (w.toNat / 4096 = 4 → decode w = .ok (.addi (field3 w 9) (lowByteSigned w))) ∧
      (w.toNat / 4096 = 11 → decode w = .ok (.set (field3 w 9) (lowByteSigned w)))) ∧
    (∀ imm : Int, -128 ≤ imm → imm ≤ 127 → s16 (immWord imm) = imm) ∧
    ∀ w : Word, w.toNat / 4096 = 14 → ∃ t p, p.val = w.toNat / 64 % 8 ∧
      (decode w = .ok (.inPort t p) ∨ decode w = .ok (.outPort t p))

/-- 30_encoding.md section 10: the canonical word of every instruction, as a number (`SFT.INVALID`'s from the opcode
table, log 10, a DESIGN CHOICE; `J` and `JAL` keep `a` and `b` at flag 0 too, log 38, DEDUCED). -/
def Obligations.EncodeGivesTheCanonicalWord : Prop :=
  (encode .nop).toNat = 0 ∧ (encode .ret).toNat = 0xC000 ∧ (encode .halt).toNat = 0xF000 ∧
  (∀ t b, (encode (.load t b)).toNat = 0x1000 + 512 * t.val + 8 * b.val) ∧
  (∀ a b, (encode (.store a b)).toNat = 0x2000 + 64 * a.val + 8 * b.val) ∧
  (∀ t a b, (encode (.add t a b)).toNat = 0x3000 + 512 * t.val + 64 * a.val + 8 * b.val) ∧
  (∀ t imm, (encode (.addi t imm)).toNat = 0x4000 + 512 * t.val + imm % 256) ∧
  (∀ t a b, (encode (.sub t a b)).toNat = 0x5000 + 512 * t.val + 64 * a.val + 8 * b.val) ∧
  (∀ t a b, (encode (.and t a b)).toNat = 0x6000 + 512 * t.val + 64 * a.val + 8 * b.val) ∧
  (∀ t a b, (encode (.xor t a b)).toNat = 0x7000 + 512 * t.val + 64 * a.val + 8 * b.val) ∧
  (∀ t f a b, (encode (.j t f a b)).toNat =
    0x8000 + 512 * t.val + 64 * a.val + 8 * b.val +
      match f with | .always => 0 | .less => 2 | .equal => 4 | .greater => 6) ∧
  (∀ t f a b, (encode (.jal t f a b)).toNat =
    0x9000 + 512 * t.val + 64 * a.val + 8 * b.val +
      match f with | .always => 0 | .less => 2 | .equal => 4 | .greater => 6) ∧
  (∀ a, (encode (.ssp a)).toNat = 0xA000 + 64 * a.val) ∧
  (∀ t imm, (encode (.set t imm)).toNat = 0xB000 + 512 * t.val + imm % 256) ∧
  (∀ t a b, (encode (.sftLeft t a b)).toNat = 0xD000 + 512 * t.val + 64 * a.val + 8 * b.val) ∧
  (∀ t a b, (encode (.sftLogicalRight t a b)).toNat = 0xD002 + 512 * t.val + 64 * a.val + 8 * b.val) ∧
  (∀ t a b, (encode (.sftArithRight t a b)).toNat = 0xD004 + 512 * t.val + 64 * a.val + 8 * b.val) ∧
  (∀ t a b, (encode (.sftInvalid t a b)).toNat = 0xD006 + 512 * t.val + 64 * a.val + 8 * b.val) ∧
  (∀ t p, (encode (.inPort t p)).toNat = 0xE000 + 512 * t.val + 64 * p.val) ∧
  ∀ t p, (encode (.outPort t p)).toNat = 0xE020 + 512 * t.val + 64 * p.val

/-- 30_encoding.md section 10: decode of encode is the instruction itself, for every instruction with operands in range. The
case of `sftInvalid` is the model's choice (log 10); that `J` and `JAL` at flag 0 admit every `a` and `b` is its reading (log 38). -/
def Obligations.DecodeOfEncodeIsTheInstruction : Prop :=
  ∀ i : Instr, i.wellFormed = true → decode (encode i) = .ok i

/-- 30_encoding.md section 10: encode of decode is the word with the bits in no field cleared. That the words of opcode 13 with
operator 3 have an instruction to encode is the model's choice (log 10); at flag 0 `a` and `b` count as fields (log 38). -/
def Obligations.EncodeOfDecodeClearsBitsInNoField : Prop :=
  ∀ (w : Word) (i : Instr), decode w = .ok i → encode i = w &&& fieldMask w

/-! ## Reset and launch (10_state.md section 12, 70_reset_and_hazards.md) -/

/-- R210: the fresh state for any launch parameters; `State.reset` is one of them, at the values of log 1 to 4. -/
def Obligations.ResetCreatesTheLaunchState : Prop :=
  (∀ l : Launch,
    (State.launch l).pc = 0 ∧ (State.launch l).sp = 0 ∧ (State.launch l).out = [] ∧
      (State.launch l).status = .running ∧
      (∀ r : RegIdx, (State.launch l).readReg r = l.regInit[r.val]) ∧
      (∀ a, (State.launch l).readMem a = Memory.read Memory.unlisted l.memInit a) ∧
      (∀ p : Port, (State.launch l).readPort p = l.ioInit[p.val]) ∧
      (1 ≤ l.storeSize → (State.launch l).fetchWord = some ((State.launch l).readStore 0))) ∧
    ∃ l : Launch, l.Admitted ∧ State.reset = State.launch l

/-- 10_state.md section 12 and 70_reset_and_hazards.md section 2 (D27, log 33): word `k` of the loaded sequence stands at
index `k`, and every other index holds 0. -/
def Obligations.LoadedProgramFillsTheStore : Prop :=
  ∀ (l : Launch) (k : Nat),
    (State.launch l).storeSize = l.storeSize ∧ (State.launch l).readStore k = l.program.getD k 0

/-- The launch state of every admitted launch meets the invariant. -/
def Obligations.LaunchStatesMeetTheInvariant : Prop :=
  ∀ l : Launch, l.Admitted → (State.launch l).Inv

/-- The state after reset meets the invariant. -/
def Obligations.ResetMeetsTheInvariant : Prop :=
  State.reset.Inv

/-- Every step keeps the invariant: canonical memories, an admitted store, `pc` in [-32768, 32768], output events of 16
bits, and a fault record that is true of the state. -/
def Obligations.StepKeepsTheInvariant : Prop :=
  ∀ s s' : State, s.Inv → step s = .next s' → s'.Inv

/-! ## The step (00_scope.md section 5, 60_exceptions.md) -/

/-- 00_scope.md section 5: a running engine whose `pc` is inside the store runs the instruction its word decodes to;
`step` adds nothing around it. -/
def Obligations.StepRunsTheDecodedInstruction : Prop :=
  ∀ (s : State) (i : Instr), s.status = .running → 0 ≤ s.pc → s.pc < s.storeSize →
    decode (s.readStore s.pc.toNat) = .ok i → step s = exec i s

/-- 10_state.md section 9 (D14, D15; log 8): an engine that is not running has no next state. -/
def Obligations.FinishedEngineHasNoStep : Prop :=
  ∀ s : State, s.status ≠ .running → ∀ s', step s ≠ .next s'

/-- 60_exceptions.md section 1 (D2, log 13): a fetch outside the store takes `FetchOutOfRange`, with no word. -/
def Obligations.FetchOutsideTheStoreFaults : Prop :=
  ∀ s : State, s.status = .running → (s.pc < 0 ∨ (s.storeSize : Int) ≤ s.pc) →
    ∃ s', step s = .next s' ∧ s'.status = .faulted .fetchOutOfRange s.pc none ∧ s.ChangesOnly s' [.status]

/-- 60_exceptions.md section 2 (D15, log 25): a step that ends in a fault records its cause, `pc` and word, and changes
nothing else. -/
def Obligations.FaultsArePrecise : Prop :=
  ∀ (s s' : State) (c : FaultCause) (p : Int) (w : Option Word),
    step s = .next s' → s'.status = .faulted c p w → s.FaultsInto s' c

/-- 60_exceptions.md section 1 table, sections 3 and 5 (D2, D7, D13, D18; log 13, 17, 23, 28): which fault a running
engine's step takes, and that it takes no other. -/
def Obligations.FaultsAriseExactlyWhenListed : Prop :=
  ∀ (s : State) (c : FaultCause), s.status = .running →
    ((∃ s', step s = .next s' ∧ s.FaultsInto s' c) ↔ c.Arises s)

/-- 10_state.md section 9 (D14, log 24): a running engine halts at `HALT` and nowhere else. -/
def Obligations.HaltsExactlyAtHalt : Prop :=
  ∀ s : State, s.status = .running →
    ((∃ s', step s = .next s' ∧ s'.status = .halted) ↔ s.AboutToRun .halt)

/-- 10_state.md section 3 (D2): whatever completes, other than a taken `J` or `JAL`, `RET` and `HALT`, sets `pc` to `pc + 1`. -/
def Obligations.OtherInstructionsAdvancePc : Prop :=
  ∀ (s s' : State) (i : Instr), s.AboutToRun i → ¬ Redirects i s → step s = .next s' →
    s'.status = .running → s'.pc = s.pc + 1

/-! ## Rules of the whole machine -/

/-- R39: the instruction store is the same after any number of steps. -/
def Obligations.RunsNeverChangeTheInstructionStore : Prop :=
  ∀ (n : Nat) (s s' : State), Host.Core.run Sys2Proof.core n s = .next s' →
    (∀ k, s'.readStore k = s.readStore k) ∧ s'.storeSize = s.storeSize

/-- R18: `out` starts empty; an executed `OUT` appends the signed value it writes, and nothing else changes `out`; no
instruction reads it, so a run with other earlier events goes the same way. -/
def Obligations.OutputGrowsExactlyAtOut : Prop :=
  (∀ l : Launch, (State.launch l).out = []) ∧
    ∀ s s' : State, step s = .next s' →
      (∀ t p, s.AboutToRun (.outPort t p) → s'.out = s.out ++ [s16 (s.readReg t)]) ∧
        ((¬ ∃ t p, s.AboutToRun (.outPort t p)) → s'.out = s.out) ∧
        ∀ o : List Int, step { s with out := o } = .next { s' with out := o ++ s'.out.drop s.out.length }

/-- 10_state.md section 7 (D20, log 29): a port changes only when `OUT` writes that port. -/
def Obligations.PortsChangeOnlyByOut : Prop :=
  ∀ (s s' : State) (p : Port), step s = .next s' → (∀ t, ¬ s.AboutToRun (.outPort t p)) →
    s'.readPort p = s.readPort p

/-- 10_state.md section 6 and 20_memory.md section 1 (D5, D8): a cell changes only when a `STORE` addresses it or a taken
`JAL` pushes to it. -/
def Obligations.MemoryChangesOnlyByStoreAndCall : Prop :=
  ∀ (s s' : State) (k : Nat), step s = .next s' → s'.readMem k ≠ s.readMem k →
    (∃ a b, s.AboutToRun (.store a b) ∧ k = u16 (s.readReg b)) ∨
      ∃ t f a b, s.AboutToRun (.jal t f a b) ∧ s.CondHolds f a b ∧ k = s.sp.val

/-- 10_state.md section 4 (D6, D7): `sp` changes only by `SSP`, by a taken `JAL` (up by 1) and by `RET` (down by 1). -/
def Obligations.StackPointerChangesOnlyByItsInstructions : Prop :=
  ∀ s s' : State, step s = .next s' → s'.sp ≠ s.sp →
    (∃ a, s.AboutToRun (.ssp a)) ∨
      (∃ t f a b, s.AboutToRun (.jal t f a b) ∧ s.CondHolds f a b ∧ s'.sp.val = s.sp.val + 1) ∨
      (s.AboutToRun .ret ∧ s'.sp.val + 1 = s.sp.val)

/-- 10_state.md section 2: a step writes no general register but its instruction's destination. -/
def Obligations.RegistersChangeOnlyAtTheDestination : Prop :=
  ∀ (s s' : State) (i : Instr) (r : RegIdx), s.AboutToRun i → step s = .next s' →
    destinationOf i ≠ some r → s'.readReg r = s.readReg r

/-- 20_memory.md section 8 (D5, D9): a `LOAD` right after a `STORE` gives the value stored when it names the same cell,
and what the cell held otherwise. -/
def Obligations.LoadSeesTheLastStore : Prop :=
  ∀ (a b t q : RegIdx) (s : State), ∃ s1 s2,
    exec (.store a b) s = .next s1 ∧ exec (.load t q) s1 = .next s2 ∧
      s2.readReg t = if s.readReg q = s.readReg b then s.readReg a else s.readMem (u16 (s.readReg q))

/-- 20_memory.md section 8 and 10_state.md section 7 (D20): an `IN` right after an `OUT` gives the value written when it
names the same port, and what the port held otherwise; one event has been emitted. -/
def Obligations.InSeesTheLastOut : Prop :=
  ∀ (t q : RegIdx) (p p' : Port) (s : State), ∃ s1 s2,
    exec (.outPort t p) s = .next s1 ∧ exec (.inPort q p') s1 = .next s2 ∧
      s2.readReg q = (if p' = p then s.readReg t else s.readPort p') ∧
      s2.out = s.out ++ [s16 (s.readReg t)]

/-- 42_control_flow.md section 1 and the source's test S4 (D3, D7, D8): a `RET` that finds `sp` and the pushed cell as
the call left them continues just after the call and restores `sp`. -/
def Obligations.ReturnGoesJustAfterTheCall : Prop :=
  ∀ (t : RegIdx) (f : Cond) (a b : RegIdx) (s : State),
    s.CondHolds f a b → s.sp.val < 65536 → 0 ≤ s.pc → s.pc < 32768 →
      ∃ s1, exec (.jal t f a b) s = .next s1 ∧
        ∀ s2 : State, s2.sp = s1.sp → s2.readMem s.sp.val = s1.readMem s.sp.val →
          ∃ s3, exec .ret s2 = .next s3 ∧ s3.pc = s.pc + 1 ∧ s3.sp = s.sp

/-- 70_reset_and_hazards.md section 3 (D3): a jump to its own index repeats for ever and never faults. -/
def Obligations.SelfJumpRunsForever : Prop :=
  ∀ (n : Nat) (t a b : RegIdx) (s : State), s.AboutToRun (.j t .always a b) → s16 (s.readReg t) = s.pc →
    Host.Core.run Sys2Proof.core n s = .next s

/-- 45_system.md and 70_reset_and_hazards.md section 2 (D2, log 13): where the store holds only 0 from `pc` to its end,
the engine runs `NOP`s to the end, changing only `pc`, and then takes `FetchOutOfRange`. -/
def Obligations.UnfilledStoreRunsToItsEndAndFaults : Prop :=
  ∀ s : State, s.status = .running → 0 ≤ s.pc → s.pc ≤ s.storeSize →
    (∀ k : Nat, s.pc ≤ k → k < s.storeSize → s.readStore k = 0) →
      ∃ s1 s2, Host.Core.run Sys2Proof.core ((s.storeSize : Int) - s.pc).toNat s = .next s1 ∧
        s1.pc = s.storeSize ∧ s.ChangesOnly s1 [.pc] ∧ step s1 = .next s2 ∧
        s2.status = .faulted .fetchOutOfRange s.storeSize none ∧ s1.ChangesOnly s2 [.status]

/-! ## Load and store (40_load_store.md) -/

/-- `LOAD` (D5, D9; log 15, 19): `x[t]` receives the cell the register addresses, unsigned. -/
def Obligations.LoadReadsTheAddressedCell : Prop :=
  ∀ (t b : RegIdx) (s : State), ∃ s', exec (.load t b) s = .next s' ∧
    s'.readReg t = s.readMem (u16 (s.readReg b)) ∧ s'.pc = s.pc + 1 ∧ s.ChangesOnly s' [.reg t, .pc]

/-- `STORE` (D5, D9; log 15, 19): the addressed cell receives `x[a]`; every other cell reads as before. -/
def Obligations.StoreWritesTheAddressedCell : Prop :=
  ∀ (a b : RegIdx) (s : State), ∃ s', exec (.store a b) s = .next s' ∧
    s'.readMem (u16 (s.readReg b)) = s.readReg a ∧ s'.pc = s.pc + 1 ∧
    s.ChangesOnly s' [.cell (u16 (s.readReg b)), .pc]

/-! ## Arithmetic and logic (41_arith_logic.md) -/

/-- R111, encoding and effect. -/
def Obligations.AddWrapsTheSum : Prop :=
  (∀ w : Word, w.toNat / 4096 = 3 → decode w = .ok (.add (field3 w 9) (field3 w 6) (field3 w 3))) ∧
    (∀ t a b : RegIdx, (encode (.add t a b)).toNat = 0x3000 + 512 * t.val + 64 * a.val + 8 * b.val) ∧
    ∀ (t a b : RegIdx) (s : State), ∃ s', exec (.add t a b) s = .next s' ∧
      u16 (s'.readReg t) = (u16 (s.readReg a) + u16 (s.readReg b)) % 65536 ∧ s'.pc = s.pc + 1 ∧
      s.ChangesOnly s' [.reg t, .pc]

/-- `ADDI` (D10, log 20): the signed immediate is added to `x[t]` itself, modulo 2^16. -/
def Obligations.AddiAddsTheSignedImmediate : Prop :=
  ∀ (t : RegIdx) (imm : Int) (s : State), ∃ s', exec (.addi t imm) s = .next s' ∧
    (u16 (s'.readReg t) : Int) = (u16 (s.readReg t) + imm) % 65536 ∧ s'.pc = s.pc + 1 ∧
    s.ChangesOnly s' [.reg t, .pc]

/-- `SUB` (D11, log 21): `x[a] - x[b]` modulo 2^16. -/
def Obligations.SubWrapsTheDifference : Prop :=
  ∀ (t a b : RegIdx) (s : State), ∃ s', exec (.sub t a b) s = .next s' ∧
    (u16 (s'.readReg t) : Int) = ((u16 (s.readReg a) : Int) - u16 (s.readReg b)) % 65536 ∧ s'.pc = s.pc + 1 ∧
    s.ChangesOnly s' [.reg t, .pc]

/-- R114, encoding and effect. -/
def Obligations.AndActsBitByBit : Prop :=
  (∀ w : Word, w.toNat / 4096 = 6 → decode w = .ok (.and (field3 w 9) (field3 w 6) (field3 w 3))) ∧
    (∀ t a b : RegIdx, (encode (.and t a b)).toNat = 0x6000 + 512 * t.val + 64 * a.val + 8 * b.val) ∧
    ∀ (t a b : RegIdx) (s : State), ∃ s', exec (.and t a b) s = .next s' ∧
      (∀ k < 16, (s'.readReg t).getLsbD k = ((s.readReg a).getLsbD k && (s.readReg b).getLsbD k)) ∧
      s'.pc = s.pc + 1 ∧ s.ChangesOnly s' [.reg t, .pc]

/-- R115, encoding and effect. -/
def Obligations.XorActsBitByBit : Prop :=
  (∀ w : Word, w.toNat / 4096 = 7 → decode w = .ok (.xor (field3 w 9) (field3 w 6) (field3 w 3))) ∧
    (∀ t a b : RegIdx, (encode (.xor t a b)).toNat = 0x7000 + 512 * t.val + 64 * a.val + 8 * b.val) ∧
    ∀ (t a b : RegIdx) (s : State), ∃ s', exec (.xor t a b) s = .next s' ∧
      (∀ k < 16, (s'.readReg t).getLsbD k = ((s.readReg a).getLsbD k ^^ (s.readReg b).getLsbD k)) ∧
      s'.pc = s.pc + 1 ∧ s.ChangesOnly s' [.reg t, .pc]

/-- R116, encoding and effect: all 16 bits of `x[t]` become the sign-extended immediate. -/
def Obligations.SetWritesTheSignExtendedImmediate : Prop :=
  (∀ w : Word, w.toNat / 4096 = 11 →
      decode w = .ok (.set (field3 w 9) (lowByteSigned w))) ∧
    (∀ (t : RegIdx) (imm : Int), (encode (.set t imm)).toNat = 0xB000 + 512 * t.val + imm % 256) ∧
    ∀ (t : RegIdx) (imm : Int) (s : State), ∃ s', exec (.set t imm) s = .next s' ∧
      (-128 ≤ imm → imm ≤ 127 → s16 (s'.readReg t) = imm) ∧ s'.pc = s.pc + 1 ∧
      s.ChangesOnly s' [.reg t, .pc]

/-- 41_arith_logic.md section 1: the signed and the unsigned reading of the operands give the same sum and difference. -/
def Obligations.SignedAndUnsignedArithmeticAgree : Prop :=
  ∀ (t a b : RegIdx) (s s1 s2 : State), exec (.add t a b) s = .next s1 → exec (.sub t a b) s = .next s2 →
    s1.readReg t = wrap16 (s16 (s.readReg a) + s16 (s.readReg b)) ∧
      s2.readReg t = wrap16 (s16 (s.readReg a) - s16 (s.readReg b))

/-! ## Control flow (42_control_flow.md) -/

/-- `J` with each of its four conditions (D3, D12; log 14, 22): `pc` becomes the signed reading of `x[t]` when the condition
holds and `pc + 1` when not; nothing else changes. -/
def Obligations.JumpGoesToTheTargetWhenTaken : Prop :=
  ∀ (t : RegIdx) (f : Cond) (a b : RegIdx) (s : State), ∃ s', exec (.j t f a b) s = .next s' ∧
    (s.CondHolds f a b → s'.pc = s16 (s.readReg t)) ∧ (¬ s.CondHolds f a b → s'.pc = s.pc + 1) ∧
    s.ChangesOnly s' [.pc]

/-- A taken `JAL` with room on the stack (D3, D7, D8; log 14, 17, 18) pushes its own index and jumps. -/
def Obligations.CallPushesItsOwnIndex : Prop :=
  ∀ (t : RegIdx) (f : Cond) (a b : RegIdx) (s : State), s.CondHolds f a b → s.sp.val < 65536 →
    ∃ s', exec (.jal t f a b) s = .next s' ∧ s'.readMem s.sp.val = wrap16 s.pc ∧
      s'.sp.val = s.sp.val + 1 ∧ s'.pc = s16 (s.readReg t) ∧ s.ChangesOnly s' [.cell s.sp.val, .sp, .pc]

/-- A `JAL` that is not taken (D8, log 18) only advances `pc`, whatever `sp` is. -/
def Obligations.UntakenCallOnlyAdvances : Prop :=
  ∀ (t : RegIdx) (f : Cond) (a b : RegIdx) (s : State), ¬ s.CondHolds f a b →
    ∃ s', exec (.jal t f a b) s = .next s' ∧ s'.pc = s.pc + 1 ∧ s.ChangesOnly s' [.pc]

/-- A taken `JAL` with `sp = 65536` (D7, log 17) takes `StackOverflow` and changes nothing else. -/
def Obligations.CallBeyondTheLastCellFaults : Prop :=
  ∀ (t : RegIdx) (f : Cond) (a b : RegIdx) (s : State), s.CondHolds f a b → s.sp.val = 65536 →
    ∃ s', exec (.jal t f a b) s = .next s' ∧ s.FaultsInto s' .stackOverflow

/-- `SSP` (D6, log 16): `sp` becomes the unsigned reading of `x[a]`. -/
def Obligations.SspTakesTheUnsignedRegister : Prop :=
  ∀ (a : RegIdx) (s : State), ∃ s', exec (.ssp a) s = .next s' ∧
    s'.sp.val = u16 (s.readReg a) ∧ s'.pc = s.pc + 1 ∧ s.ChangesOnly s' [.sp, .pc]

/-- `RET` with something to pop (D3, D7; log 14, 17): `sp` goes down by 1 and `pc` to one past the popped cell's signed
reading; the cell keeps its value. -/
def Obligations.RetGoesOnePastThePoppedIndex : Prop :=
  ∀ s : State, 0 < s.sp.val → ∃ s', exec .ret s = .next s' ∧
    s'.sp.val = s.sp.val - 1 ∧ s'.pc = s16 (s.readMem (s.sp.val - 1)) + 1 ∧ s.ChangesOnly s' [.sp, .pc]

/-- `RET` with `sp = 0` (D7, log 17) takes `StackUnderflow` and changes nothing else. -/
def Obligations.RetOnAnEmptyStackFaults : Prop :=
  ∀ s : State, s.sp.val = 0 → ∃ s', exec .ret s = .next s' ∧ s.FaultsInto s' .stackUnderflow

/-! ## Shift (43_shift.md) -/

/-- `SFT <<` (operator 0, D28, log 30) with a distance of 0 to 15: zeros enter from below, the top bits are lost. -/
def Obligations.ShiftLeftMovesBitsUp : Prop :=
  (∀ w : Word, w &&& 0xF006 = 0xD000 → decode w = .ok (.sftLeft (field3 w 9) (field3 w 6) (field3 w 3))) ∧
    ∀ (t a b : RegIdx) (s : State) (n : Nat), n ≤ 15 → s16 (s.readReg b) = n →
      ∃ s', exec (.sftLeft t a b) s = .next s' ∧
        (∀ k < 16, (s'.readReg t).getLsbD k = (decide (n ≤ k) && (s.readReg a).getLsbD (k - n))) ∧
        s'.pc = s.pc + 1 ∧ s.ChangesOnly s' [.reg t, .pc]

/-- `SFT >>>` (operator 1, D28, log 30) with a distance of 0 to 15: zeros enter at bit 15. -/
def Obligations.ShiftLogicalRightFillsWithZeros : Prop :=
  (∀ w : Word, w &&& 0xF006 = 0xD002 → decode w = .ok (.sftLogicalRight (field3 w 9) (field3 w 6) (field3 w 3))) ∧
    ∀ (t a b : RegIdx) (s : State) (n : Nat), n ≤ 15 → s16 (s.readReg b) = n →
      ∃ s', exec (.sftLogicalRight t a b) s = .next s' ∧
        (∀ k < 16, (s'.readReg t).getLsbD k = (decide (k + n ≤ 15) && (s.readReg a).getLsbD (k + n))) ∧
        s'.pc = s.pc + 1 ∧ s.ChangesOnly s' [.reg t, .pc]

/-- `SFT >>` (operator 2, D28, log 30) with a distance of 0 to 15: copies of bit 15 enter at bit 15. -/
def Obligations.ShiftArithRightFillsWithTheSign : Prop :=
  (∀ w : Word, w &&& 0xF006 = 0xD004 → decode w = .ok (.sftArithRight (field3 w 9) (field3 w 6) (field3 w 3))) ∧
    ∀ (t a b : RegIdx) (s : State) (n : Nat), n ≤ 15 → s16 (s.readReg b) = n →
      ∃ s', exec (.sftArithRight t a b) s = .next s' ∧
        (∀ k < 16, (s'.readReg t).getLsbD k = (s.readReg a).getLsbD (if k + n ≤ 15 then k + n else 15)) ∧
        s'.pc = s.pc + 1 ∧ s.ChangesOnly s' [.reg t, .pc]

/-- `SFT` with any valid operator and a distance outside 0 to 15 (D13, log 23) takes `ShiftDistanceOutOfRange`. -/
def Obligations.ShiftOutsideTheRangeFaults : Prop :=
  ∀ (i : Instr) (b : RegIdx) (s : State), IsShiftBy i b → (s16 (s.readReg b) < 0 ∨ 15 < s16 (s.readReg b)) →
    ∃ s', exec i s = .next s' ∧ s.FaultsInto s' .shiftDistanceOutOfRange

/-- Operator 3 takes `InvalidShiftOperator`, whatever the other fields and the registers hold (the record is D15's, log 25).
The first clause is the model's choice (log 10, DESIGN CHOICE): such a word decodes to an instruction, whose meaning raises
the fault that R58 raises at decode. -/
def Obligations.InvalidShiftOperatorFaults : Prop :=
  (∀ w : Word, w &&& 0xF006 = 0xD006 → ∃ t a b, decode w = .ok (.sftInvalid t a b)) ∧
    ∀ (t a b : RegIdx) (s : State), ∃ s', exec (.sftInvalid t a b) s = .next s' ∧
      s.FaultsInto s' .invalidShiftOperator

/-! ## Input and output (44_io.md) -/

/-- R160, encoding and effect. -/
def Obligations.InCopiesThePortIntoTheRegister : Prop :=
  (∀ w : Word, w &&& 0xF020 = 0xE000 → decode w = .ok (.inPort (field3 w 9) (field3 w 6))) ∧
    (∀ (t : RegIdx) (p : Port), (encode (.inPort t p)).toNat = 0xE000 + 512 * t.val + 64 * p.val) ∧
    ∀ (t : RegIdx) (p : Port) (s : State), ∃ s', exec (.inPort t p) s = .next s' ∧
      s'.readReg t = s.readPort p ∧ s'.pc = s.pc + 1 ∧ s.ChangesOnly s' [.reg t, .pc]

/-- R161, encoding and effect: the port is written and exactly one event, the signed value, is emitted. -/
def Obligations.OutWritesThePortAndEmits : Prop :=
  (∀ w : Word, w &&& 0xF020 = 0xE020 → decode w = .ok (.outPort (field3 w 9) (field3 w 6))) ∧
    (∀ (t : RegIdx) (p : Port), (encode (.outPort t p)).toNat = 0xE020 + 512 * t.val + 64 * p.val) ∧
    ∀ (t : RegIdx) (p : Port) (s : State), ∃ s', exec (.outPort t p) s = .next s' ∧
      s'.readPort p = s.readReg t ∧ s'.out = s.out ++ [s16 (s.readReg t)] ∧ s'.pc = s.pc + 1 ∧
      s.ChangesOnly s' [.port p, .out, .pc]

/-! ## System (45_system.md) -/

/-- R170, encoding and effect: every word of opcode 0 is `NOP`, which advances `pc` by exactly 1 and changes nothing else. -/
def Obligations.NopOnlyAdvances : Prop :=
  (∀ w : Word, w.toNat / 4096 = 0 → decode w = .ok .nop) ∧ encode .nop = 0 ∧
    ∀ s : State, ∃ s', exec .nop s = .next s' ∧ s'.pc = s.pc + 1 ∧ s.ChangesOnly s' [.pc]

/-- `HALT` (D14, log 24): the status becomes `Halted`; what `pc` is then, this statement does not say (U8 of
93_implementation_defined.md). -/
def Obligations.HaltEndsTheRun : Prop :=
  (∀ w : Word, w.toNat / 4096 = 15 → decode w = .ok .halt) ∧
    ∀ s : State, ∃ s', exec .halt s = .next s' ∧ s'.status = .halted ∧ s.ChangesOnly s' [.status, .pc]
end

