-- ==== Sys2Proof/Laws/Memory.lean ====
section
/-! SUPPORT. The laws of one address space: read after write, the canonical form, and that it determines the list. -/

namespace Sys2Proof.Machine

variable {d : Word} {m m' : List Cell} {a a' k : Nat} {v : Word}

/-! ## Reads -/

theorem Memory.read_erase_same : Memory.read d (Memory.erase a m) a = d := by
  induction m with
  | nil => rfl
  | cons c rest ih =>
    obtain ⟨k, u⟩ := c
    by_cases h : k = a <;> simp [Memory.erase, Memory.read, h, ih]

theorem Memory.read_erase_other (h : a' ≠ a) :
    Memory.read d (Memory.erase a m) a' = Memory.read d m a' := by
  induction m with
  | nil => rfl
  | cons c rest ih =>
    obtain ⟨k, u⟩ := c
    by_cases hk : k = a
    · have hne : ¬ k = a' := by omega
      simp [Memory.erase, Memory.read, hk, ih, Ne.symm h]
    · by_cases hk' : k = a' <;> simp [Memory.erase, Memory.read, hk, hk', ih, h]

theorem Memory.read_insert_same : Memory.read d (Memory.insert a v m) a = v := by
  induction m with
  | nil => simp [Memory.insert, Memory.read]
  | cons c rest ih =>
    obtain ⟨k, u⟩ := c
    by_cases h : k < a
    · have hne : ¬ k = a := by omega
      simp [Memory.insert, Memory.read, h, hne, ih]
    · simp [Memory.insert, Memory.read, h]

theorem Memory.read_insert_other (h : a' ≠ a) :
    Memory.read d (Memory.insert a v m) a' = Memory.read d m a' := by
  induction m with
  | nil => simp [Memory.insert, Memory.read, Ne.symm h]
  | cons c rest ih =>
    obtain ⟨k, u⟩ := c
    by_cases hk : k < a
    · simp [Memory.insert, Memory.read, hk, ih]
    · simp [Memory.insert, Memory.read, hk, Ne.symm h]

/-- A read of the cell just written gives the value written, in every list. -/
@[simp] theorem Memory.read_write_same : Memory.read d (Memory.write d m a v) a = v := by
  by_cases h : v = d
  · simp [Memory.write, h, Memory.read_erase_same]
  · simp [Memory.write, h, Memory.read_insert_same]

/-- A write leaves every other cell as it was. -/
theorem Memory.read_write_other (h : a' ≠ a) :
    Memory.read d (Memory.write d m a v) a' = Memory.read d m a' := by
  by_cases hv : v = d
  · simp [Memory.write, hv, Memory.read_erase_other h]
  · simp [Memory.write, hv, Memory.read_insert_other h, Memory.read_erase_other h]

/-- What a read gives after a write, in one equation. -/
theorem Memory.read_write :
    Memory.read d (Memory.write d m a v) a' = if a' = a then v else Memory.read d m a' := by
  by_cases h : a' = a
  · simp [h]
  · simp [h, Memory.read_write_other h]

/-! ## The canonical form -/

theorem Memory.mem_erase {c : Cell} : c ∈ Memory.erase a m ↔ c ∈ m ∧ c.1 ≠ a := by
  induction m with
  | nil => simp [Memory.erase]
  | cons e rest ih =>
    obtain ⟨k, u⟩ := e
    by_cases h : k = a
    · simp only [Memory.erase, h, if_true, ih, List.mem_cons]
      constructor
      · rintro ⟨h1, h2⟩; exact ⟨.inr h1, h2⟩
      · rintro ⟨h1 | h1, h2⟩
        · exact absurd (by rw [h1]) h2
        · exact ⟨h1, h2⟩
    · simp only [Memory.erase, h, if_false, List.mem_cons, ih]
      constructor
      · rintro (h1 | ⟨h1, h2⟩)
        · exact ⟨.inl h1, by rw [h1]; exact h⟩
        · exact ⟨.inr h1, h2⟩
      · rintro ⟨h1 | h1, h2⟩
        · exact .inl h1
        · exact .inr ⟨h1, h2⟩

theorem Memory.mem_insert {c : Cell} : c ∈ Memory.insert a v m ↔ c = (a, v) ∨ c ∈ m := by
  induction m with
  | nil => simp [Memory.insert]
  | cons e rest ih =>
    obtain ⟨k, u⟩ := e
    by_cases h : k < a
    · simp only [Memory.insert, h, if_true, List.mem_cons, ih]; tauto
    · simp [Memory.insert, h]

theorem Memory.erase_sorted (h : m.Pairwise (fun c e => c.1 < e.1)) :
    (Memory.erase a m).Pairwise (fun c e => c.1 < e.1) := by
  induction m with
  | nil => exact h
  | cons e rest ih =>
    obtain ⟨k, u⟩ := e
    rw [List.pairwise_cons] at h
    by_cases hk : k = a
    · simpa [Memory.erase, hk] using ih h.2
    · simp only [Memory.erase, hk, if_false, List.pairwise_cons]
      exact ⟨fun c hc => h.1 c (Memory.mem_erase.mp hc).1, ih h.2⟩

theorem Memory.insert_sorted (h : m.Pairwise (fun c e => c.1 < e.1)) (ha : ∀ c ∈ m, c.1 ≠ a) :
    (Memory.insert a v m).Pairwise (fun c e => c.1 < e.1) := by
  induction m with
  | nil => simp [Memory.insert]
  | cons e rest ih =>
    obtain ⟨k, u⟩ := e
    have hp := List.pairwise_cons.mp h
    by_cases hk : k < a
    · simp only [Memory.insert, hk, if_true, List.pairwise_cons]
      refine ⟨fun c hc => ?_, ih hp.2 fun c hc => ha c (by simp [hc])⟩
      rcases Memory.mem_insert.mp hc with rfl | hc
      · exact hk
      · exact hp.1 c hc
    · simp only [Memory.insert, hk, if_false]
      refine List.pairwise_cons.mpr ⟨fun c hc => ?_, h⟩
      have hka : k ≠ a := ha (k, u) (by simp)
      rcases List.mem_cons.mp hc with rfl | hc
      · show a < k; omega
      · have := hp.1 c hc
        show a < c.1
        simp only at this; omega

/-- Every write inside the space keeps the canonical form. -/
theorem Memory.write_wf {size : Nat} (h : Memory.wf d size m) (ha : a < size) :
    Memory.wf d size (Memory.write d m a v) := by
  have he : ∀ c ∈ Memory.erase a m, c.1 < size ∧ c.2 ≠ d := fun c hc => h.2 c (Memory.mem_erase.mp hc).1
  by_cases hv : v = d
  · simp only [Memory.write, hv, if_true]
    exact ⟨Memory.erase_sorted h.1, he⟩
  · simp only [Memory.write, hv, if_false]
    refine ⟨Memory.insert_sorted (Memory.erase_sorted h.1) fun c hc => (Memory.mem_erase.mp hc).2, ?_⟩
    intro c hc
    rcases Memory.mem_insert.mp hc with rfl | hc
    · exact ⟨ha, hv⟩
    · exact he c hc

theorem Memory.nil_wf {size : Nat} : Memory.wf d size [] := by simp [Memory.wf]

/-- An index at or beyond the space reads as unlisted. -/
theorem Memory.read_beyond {size : Nat} (h : Memory.wf d size m) (ha : size ≤ a) : Memory.read d m a = d := by
  induction m with
  | nil => rfl
  | cons e rest ih =>
    obtain ⟨k, u⟩ := e
    have hk := (h.2 (k, u) (by simp)).1
    have hne : ¬ k = a := by simp only at hk; omega
    simp only [Memory.read, hne, if_false]
    exact ih ⟨(List.pairwise_cons.mp h.1).2, fun c hc => h.2 c (by simp [hc])⟩

theorem Memory.read_of_all_above (h : ∀ c ∈ m, a < c.1) : Memory.read d m a = d := by
  induction m with
  | nil => rfl
  | cons e rest ih =>
    obtain ⟨k, u⟩ := e
    have hk := h (k, u) (by simp)
    have hne : ¬ k = a := by simp only at hk; omega
    simp only [Memory.read, hne, if_false]
    exact ih fun c hc => h c (by simp [hc])

/-- Two canonical memories that read the same everywhere are the same list. -/
theorem Memory.ext_of_read {size : Nat} (h : Memory.wf d size m) (h' : Memory.wf d size m')
    (hr : ∀ a, Memory.read d m a = Memory.read d m' a) : m = m' := by
  induction m generalizing m' with
  | nil =>
    cases m' with
    | nil => rfl
    | cons e rest =>
      obtain ⟨k, u⟩ := e
      have := hr k
      exact absurd (by simpa [Memory.read] using this.symm) (h'.2 (k, u) (by simp)).2
  | cons e rest ih =>
    obtain ⟨k, u⟩ := e
    have hu := (h.2 (k, u) (by simp)).2
    have hp := List.pairwise_cons.mp h.1
    cases m' with
    | nil => exact absurd (by simpa [Memory.read] using hr k) hu
    | cons e' rest' =>
      obtain ⟨k', u'⟩ := e'
      have hu' := (h'.2 (k', u') (by simp)).2
      have hp' := List.pairwise_cons.mp h'.1
      have hk : k = k' := by
        rcases Nat.lt_trichotomy k k' with hlt | heq | hgt
        · have h1 := hr k
          rw [Memory.read_of_all_above (m := (k', u') :: rest')] at h1
          · exact absurd (by simpa [Memory.read] using h1) hu
          · intro c hc
            rcases List.mem_cons.mp hc with rfl | hc
            · exact hlt
            · have := hp'.1 c hc; simp only at this; omega
        · exact heq
        · have h1 := hr k'
          rw [Memory.read_of_all_above (m := (k, u) :: rest)] at h1
          · exact absurd (by simpa [Memory.read] using h1.symm) hu'
          · intro c hc
            rcases List.mem_cons.mp hc with rfl | hc
            · exact hgt
            · have := hp.1 c hc; simp only at this; omega
      subst hk
      have huu : u = u' := by simpa [Memory.read] using hr k
      subst huu
      congr 1
      refine ih ⟨hp.2, fun c hc => h.2 c (by simp [hc])⟩ ⟨hp'.2, fun c hc => h'.2 c (by simp [hc])⟩ ?_
      intro a
      by_cases ha : k = a
      · subst ha
        rw [Memory.read_of_all_above hp.1, Memory.read_of_all_above hp'.1]
      · simpa [Memory.read, ha] using hr a

/-! ## Loading a word sequence -/

theorem Memory.mem_load_above {ws : List Word} {c : Cell} (h : c ∈ Memory.load d k ws) :
    k ≤ c.1 ∧ c.1 < k + ws.length ∧ c.2 ≠ d := by
  induction ws generalizing k with
  | nil => simp [Memory.load] at h
  | cons w rest ih =>
    by_cases hw : w = d
    · have := ih (by simpa [Memory.load, hw] using h)
      simp only [List.length_cons]; exact ⟨by omega, by omega, this.2.2⟩
    · simp only [Memory.load, hw, if_false, List.mem_cons] at h
      rcases h with rfl | h
      · simpa using hw
      · have := ih h
        simp only [List.length_cons]; exact ⟨by omega, by omega, this.2.2⟩

/-- A loaded word sequence is in canonical form. -/
theorem Memory.load_wf {ws : List Word} {size : Nat} (h : k + ws.length ≤ size) :
    Memory.wf d size (Memory.load d k ws) := by
  refine ⟨?_, fun c hc => ?_⟩
  · induction ws generalizing k with
    | nil => simp [Memory.load]
    | cons w rest ih =>
      simp only [List.length_cons] at h
      by_cases hw : w = d
      · simpa [Memory.load, hw] using ih (k := k + 1) (by omega)
      · simp only [Memory.load, hw, if_false, List.pairwise_cons]
        refine ⟨fun c hc => ?_, ih (k := k + 1) (by omega)⟩
        have := Memory.mem_load_above hc
        show k < c.1; omega
  · have := Memory.mem_load_above hc
    exact ⟨by omega, this.2.2⟩

end Sys2Proof.Machine
end

