-- ==== Sys2Proof/Laws/State.lean ====
section
/-! SUPPORT. One lemma per field per update of State, so that no later proof unfolds a record update. -/

namespace Sys2Proof.Machine

variable (s : State)

/-! ## Writing a register -/
section
variable (r q : RegIdx) (v : Word)
@[simp] theorem State.writeReg_pc : (s.writeReg r v).pc = s.pc := rfl
@[simp] theorem State.writeReg_sp : (s.writeReg r v).sp = s.sp := rfl
@[simp] theorem State.writeReg_mem : (s.writeReg r v).mem = s.mem := rfl
@[simp] theorem State.writeReg_io : (s.writeReg r v).io = s.io := rfl
@[simp] theorem State.writeReg_out : (s.writeReg r v).out = s.out := rfl
@[simp] theorem State.writeReg_status : (s.writeReg r v).status = s.status := rfl
@[simp] theorem State.writeReg_store : (s.writeReg r v).store = s.store := rfl
@[simp] theorem State.writeReg_storeSize : (s.writeReg r v).storeSize = s.storeSize := rfl
@[simp] theorem State.readMem_writeReg (a : Nat) : (s.writeReg r v).readMem a = s.readMem a := rfl
@[simp] theorem State.readPort_writeReg (p : Port) : (s.writeReg r v).readPort p = s.readPort p := rfl
@[simp] theorem State.readStore_writeReg (k : Nat) : (s.writeReg r v).readStore k = s.readStore k := rfl
@[simp] theorem State.fetchWord_writeReg : (s.writeReg r v).fetchWord = s.fetchWord := rfl

/-- What a register reads as after a register write. -/
theorem State.readReg_writeReg :
    (s.writeReg r v).readReg q = if q = r then v else s.readReg q := by
  have : r.val = q.val ↔ q = r := by rw [eq_comm, Fin.ext_iff]
  simp [State.readReg, State.writeReg, Vector.getElem_set, this]

@[simp] theorem State.readReg_writeReg_same : (s.writeReg r v).readReg r = v := by
  simp [State.readReg_writeReg]

theorem State.readReg_writeReg_other (h : q ≠ r) : (s.writeReg r v).readReg q = s.readReg q := by
  simp [State.readReg_writeReg, h]
end

/-! ## Writing a memory cell -/
section
variable (a : Nat) (v : Word)
@[simp] theorem State.writeMem_x : (s.writeMem a v).x = s.x := rfl
@[simp] theorem State.writeMem_pc : (s.writeMem a v).pc = s.pc := rfl
@[simp] theorem State.writeMem_sp : (s.writeMem a v).sp = s.sp := rfl
@[simp] theorem State.writeMem_mem :
    (s.writeMem a v).mem = Memory.write Memory.unlisted s.mem a v := rfl
@[simp] theorem State.writeMem_io : (s.writeMem a v).io = s.io := rfl
@[simp] theorem State.writeMem_out : (s.writeMem a v).out = s.out := rfl
@[simp] theorem State.writeMem_status : (s.writeMem a v).status = s.status := rfl
@[simp] theorem State.writeMem_store : (s.writeMem a v).store = s.store := rfl
@[simp] theorem State.writeMem_storeSize : (s.writeMem a v).storeSize = s.storeSize := rfl
@[simp] theorem State.readReg_writeMem (r : RegIdx) : (s.writeMem a v).readReg r = s.readReg r := rfl
@[simp] theorem State.readPort_writeMem (p : Port) : (s.writeMem a v).readPort p = s.readPort p := rfl
@[simp] theorem State.readStore_writeMem (k : Nat) : (s.writeMem a v).readStore k = s.readStore k := rfl
@[simp] theorem State.fetchWord_writeMem : (s.writeMem a v).fetchWord = s.fetchWord := rfl

/-- What a cell reads as after a memory write. -/
theorem State.readMem_writeMem (a' : Nat) :
    (s.writeMem a v).readMem a' = if a' = a then v else s.readMem a' := Memory.read_write

@[simp] theorem State.readMem_writeMem_same : (s.writeMem a v).readMem a = v := Memory.read_write_same

theorem State.readMem_writeMem_other {a' : Nat} (h : a' ≠ a) :
    (s.writeMem a v).readMem a' = s.readMem a' := Memory.read_write_other h
end

/-! ## Writing a port -/
section
variable (p q : Port) (v : Word)
@[simp] theorem State.writePort_x : (s.writePort p v).x = s.x := rfl
@[simp] theorem State.writePort_pc : (s.writePort p v).pc = s.pc := rfl
@[simp] theorem State.writePort_sp : (s.writePort p v).sp = s.sp := rfl
@[simp] theorem State.writePort_mem : (s.writePort p v).mem = s.mem := rfl
@[simp] theorem State.writePort_out : (s.writePort p v).out = s.out := rfl
@[simp] theorem State.writePort_status : (s.writePort p v).status = s.status := rfl
@[simp] theorem State.writePort_store : (s.writePort p v).store = s.store := rfl
@[simp] theorem State.writePort_storeSize : (s.writePort p v).storeSize = s.storeSize := rfl
@[simp] theorem State.readReg_writePort (r : RegIdx) : (s.writePort p v).readReg r = s.readReg r := rfl
@[simp] theorem State.readMem_writePort (a : Nat) : (s.writePort p v).readMem a = s.readMem a := rfl
@[simp] theorem State.readStore_writePort (k : Nat) : (s.writePort p v).readStore k = s.readStore k := rfl
@[simp] theorem State.fetchWord_writePort : (s.writePort p v).fetchWord = s.fetchWord := rfl

/-- What a port reads as after a port write. -/
theorem State.readPort_writePort :
    (s.writePort p v).readPort q = if q = p then v else s.readPort q := by
  have : p.val = q.val ↔ q = p := by rw [eq_comm, Fin.ext_iff]
  simp [State.readPort, State.writePort, Vector.getElem_set, this]

@[simp] theorem State.readPort_writePort_same : (s.writePort p v).readPort p = v := by
  simp [State.readPort_writePort]

theorem State.readPort_writePort_other (h : q ≠ p) : (s.writePort p v).readPort q = s.readPort q := by
  simp [State.readPort_writePort, h]
end

/-! ## Emitting an output event -/
section
variable (v : Word)
@[simp] theorem State.emit_x : (s.emit v).x = s.x := rfl
@[simp] theorem State.emit_pc : (s.emit v).pc = s.pc := rfl
@[simp] theorem State.emit_sp : (s.emit v).sp = s.sp := rfl
@[simp] theorem State.emit_mem : (s.emit v).mem = s.mem := rfl
@[simp] theorem State.emit_io : (s.emit v).io = s.io := rfl
@[simp] theorem State.emit_out : (s.emit v).out = s.out ++ [s16 v] := rfl
@[simp] theorem State.emit_status : (s.emit v).status = s.status := rfl
@[simp] theorem State.emit_store : (s.emit v).store = s.store := rfl
@[simp] theorem State.emit_storeSize : (s.emit v).storeSize = s.storeSize := rfl
@[simp] theorem State.readReg_emit (r : RegIdx) : (s.emit v).readReg r = s.readReg r := rfl
@[simp] theorem State.readMem_emit (a : Nat) : (s.emit v).readMem a = s.readMem a := rfl
@[simp] theorem State.readPort_emit (p : Port) : (s.emit v).readPort p = s.readPort p := rfl
@[simp] theorem State.readStore_emit (k : Nat) : (s.emit v).readStore k = s.readStore k := rfl
end

/-! ## Moving the program counter -/
section
variable (n : Int)
@[simp] theorem State.jumpTo_x : (s.jumpTo n).x = s.x := rfl
@[simp] theorem State.jumpTo_pc : (s.jumpTo n).pc = n := rfl
@[simp] theorem State.jumpTo_sp : (s.jumpTo n).sp = s.sp := rfl
@[simp] theorem State.jumpTo_mem : (s.jumpTo n).mem = s.mem := rfl
@[simp] theorem State.jumpTo_io : (s.jumpTo n).io = s.io := rfl
@[simp] theorem State.jumpTo_out : (s.jumpTo n).out = s.out := rfl
@[simp] theorem State.jumpTo_status : (s.jumpTo n).status = s.status := rfl
@[simp] theorem State.jumpTo_store : (s.jumpTo n).store = s.store := rfl
@[simp] theorem State.jumpTo_storeSize : (s.jumpTo n).storeSize = s.storeSize := rfl
@[simp] theorem State.readReg_jumpTo (r : RegIdx) : (s.jumpTo n).readReg r = s.readReg r := rfl
@[simp] theorem State.readMem_jumpTo (a : Nat) : (s.jumpTo n).readMem a = s.readMem a := rfl
@[simp] theorem State.readPort_jumpTo (p : Port) : (s.jumpTo n).readPort p = s.readPort p := rfl
@[simp] theorem State.readStore_jumpTo (k : Nat) : (s.jumpTo n).readStore k = s.readStore k := rfl

@[simp] theorem State.advance_eq : s.advance = s.jumpTo (s.pc + 1) := rfl
end

/-! ## Setting the stack pointer -/
section
variable (n : Nat)
@[simp] theorem State.setSp_x : (s.setSp n).x = s.x := rfl
@[simp] theorem State.setSp_pc : (s.setSp n).pc = s.pc := rfl
@[simp] theorem State.setSp_mem : (s.setSp n).mem = s.mem := rfl
@[simp] theorem State.setSp_io : (s.setSp n).io = s.io := rfl
@[simp] theorem State.setSp_out : (s.setSp n).out = s.out := rfl
@[simp] theorem State.setSp_status : (s.setSp n).status = s.status := rfl
@[simp] theorem State.setSp_store : (s.setSp n).store = s.store := rfl
@[simp] theorem State.setSp_storeSize : (s.setSp n).storeSize = s.storeSize := rfl
@[simp] theorem State.readReg_setSp (r : RegIdx) : (s.setSp n).readReg r = s.readReg r := rfl
@[simp] theorem State.readMem_setSp (a : Nat) : (s.setSp n).readMem a = s.readMem a := rfl
@[simp] theorem State.readPort_setSp (p : Port) : (s.setSp n).readPort p = s.readPort p := rfl
@[simp] theorem State.readStore_setSp (k : Nat) : (s.setSp n).readStore k = s.readStore k := rfl

/-- Every value of [0, 65536] is held exactly. -/
theorem State.setSp_sp (h : n ≤ 65536) : (s.setSp n).sp.val = n := by
  simp only [State.setSp, Fin.val_ofNat]; omega
end

/-! ## Status changes: fault entry and halt -/
section
variable (c : FaultCause)
@[simp] theorem State.raise_x : (s.raise c).x = s.x := rfl
@[simp] theorem State.raise_pc : (s.raise c).pc = s.pc := rfl
@[simp] theorem State.raise_sp : (s.raise c).sp = s.sp := rfl
@[simp] theorem State.raise_mem : (s.raise c).mem = s.mem := rfl
@[simp] theorem State.raise_io : (s.raise c).io = s.io := rfl
@[simp] theorem State.raise_out : (s.raise c).out = s.out := rfl
@[simp] theorem State.raise_status : (s.raise c).status = .faulted c s.pc s.fetchWord := rfl
@[simp] theorem State.raise_store : (s.raise c).store = s.store := rfl
@[simp] theorem State.raise_storeSize : (s.raise c).storeSize = s.storeSize := rfl
@[simp] theorem State.readReg_raise (r : RegIdx) : (s.raise c).readReg r = s.readReg r := rfl
@[simp] theorem State.readMem_raise (a : Nat) : (s.raise c).readMem a = s.readMem a := rfl
@[simp] theorem State.readPort_raise (p : Port) : (s.raise c).readPort p = s.readPort p := rfl
@[simp] theorem State.readStore_raise (k : Nat) : (s.raise c).readStore k = s.readStore k := rfl
@[simp] theorem State.fetchWord_raise : (s.raise c).fetchWord = s.fetchWord := rfl

@[simp] theorem State.setHalted_x : s.setHalted.x = s.x := rfl
@[simp] theorem State.setHalted_pc : s.setHalted.pc = s.pc := rfl
@[simp] theorem State.setHalted_sp : s.setHalted.sp = s.sp := rfl
@[simp] theorem State.setHalted_mem : s.setHalted.mem = s.mem := rfl
@[simp] theorem State.setHalted_io : s.setHalted.io = s.io := rfl
@[simp] theorem State.setHalted_out : s.setHalted.out = s.out := rfl
@[simp] theorem State.setHalted_status : s.setHalted.status = .halted := rfl
@[simp] theorem State.setHalted_store : s.setHalted.store = s.store := rfl
@[simp] theorem State.setHalted_storeSize : s.setHalted.storeSize = s.storeSize := rfl
@[simp] theorem State.readReg_setHalted (r : RegIdx) : s.setHalted.readReg r = s.readReg r := rfl
@[simp] theorem State.readMem_setHalted (a : Nat) : s.setHalted.readMem a = s.readMem a := rfl
@[simp] theorem State.readPort_setHalted (p : Port) : s.setHalted.readPort p = s.readPort p := rfl
@[simp] theorem State.readStore_setHalted (k : Nat) : s.setHalted.readStore k = s.readStore k := rfl
end

/-! ## Placing a word in the instruction store -/
section
variable (w : Word)
@[simp] theorem State.storeWordAtPc_x : (s.storeWordAtPc w).x = s.x := rfl
@[simp] theorem State.storeWordAtPc_pc : (s.storeWordAtPc w).pc = s.pc := rfl
@[simp] theorem State.storeWordAtPc_sp : (s.storeWordAtPc w).sp = s.sp := rfl
@[simp] theorem State.storeWordAtPc_mem : (s.storeWordAtPc w).mem = s.mem := rfl
@[simp] theorem State.storeWordAtPc_io : (s.storeWordAtPc w).io = s.io := rfl
@[simp] theorem State.storeWordAtPc_out : (s.storeWordAtPc w).out = s.out := rfl
@[simp] theorem State.storeWordAtPc_status : (s.storeWordAtPc w).status = s.status := rfl
@[simp] theorem State.storeWordAtPc_storeSize : (s.storeWordAtPc w).storeSize = s.storeSize := rfl
end

end Sys2Proof.Machine
end

