-- ==== Sys2Proof/Laws/Word.lean ====
section
/-! SUPPORT. The readings of a word unfolded to their BitVec form, and the exact-then-wrap law. -/

namespace Sys2Proof

@[simp] theorem u16_eq (v : Word) : u16 v = v.toNat := rfl
@[simp] theorem s16_eq (v : Word) : s16 v = v.toInt := rfl

/-- `wrap16(n)` has the unsigned reading `n mod 65536`. -/
theorem toNat_wrap16 (n : Int) : ((wrap16 n).toNat : Int) = n % 65536 := by
  simp only [wrap16, BitVec.toNat_ofInt]
  have : (0 : Int) ≤ n % 65536 := Int.emod_nonneg _ (by decide)
  norm_cast at *
  omega

/-- A value of [-32768, 32767] is kept by `wrap16`. -/
theorem toInt_wrap16 {n : Int} (h : -32768 ≤ n) (h' : n ≤ 32767) : (wrap16 n).toInt = n := by
  simp only [wrap16, BitVec.toInt_ofInt, Int.bmod]
  omega

/-- The signed reading of a word, by its unsigned one. -/
theorem toInt_eq (v : Word) : v.toInt = if v.toNat < 32768 then (v.toNat : Int) else (v.toNat : Int) - 65536 := by
  rw [BitVec.toInt_eq_toNat_cond]
  have := v.isLt
  split <;> split <;> omega

/-- The signed reading lies in [-32768, 32767]. -/
theorem toInt_range (v : Word) : -32768 ≤ v.toInt ∧ v.toInt ≤ 32767 := by
  have := v.isLt
  rw [toInt_eq]
  split <;> omega

end Sys2Proof
end

