-- ==== Sys2Proof/Laws/Ops.lean ====
section
/-! SUPPORT. For each shared operation, one lemma that says everything it can do. -/

namespace Sys2Proof.Machine

variable {s s' : State}

/-- The fetch: the word at `pc` inside the store, none outside. -/
theorem State.fetchWord_cases :
    (0 ≤ s.pc ∧ s.pc < s.storeSize ∧ s.fetchWord = some (s.readStore s.pc.toNat)) ∨
      ((s.pc < 0 ∨ (s.storeSize : Int) ≤ s.pc) ∧ s.fetchWord = none) := by
  unfold State.fetchWord
  split
  · rename_i h; exact .inl ⟨h.1, h.2, rfl⟩
  · rename_i h; exact .inr ⟨by omega, rfl⟩

theorem State.fetchWord_eq_none : s.fetchWord = none ↔ s.pc < 0 ∨ (s.storeSize : Int) ≤ s.pc := by
  rcases State.fetchWord_cases (s := s) with ⟨h0, h1, h2⟩ | ⟨h1, h2⟩
  · simp only [h2, reduceCtorEq, false_iff]; omega
  · simp [h2, h1]

/-- After a word is placed at a `pc` inside the store, it is the word fetched. -/
theorem State.fetchWord_storeWordAtPc (w : Word) (h : 0 ≤ s.pc ∧ s.pc < s.storeSize) :
    (s.storeWordAtPc w).fetchWord = some w := by
  simp [State.fetchWord, State.storeWordAtPc, State.readStore, h]

/-- The push: below the end of memory it writes `Mem[sp]` and adds 1 to `sp`; at the end it does nothing. -/
theorem State.push_cases (v : Word) :
    (s.sp.val < 65536 ∧ s.push v = some ((s.writeMem s.sp.val v).setSp (s.sp.val + 1))) ∨
      (s.sp.val = 65536 ∧ s.push v = none) := by
  unfold State.push
  split
  · rename_i h; exact .inl ⟨h, rfl⟩
  · rename_i h; exact .inr ⟨by have := s.sp.isLt; omega, rfl⟩

/-- The pop: above 0 it gives `Mem[sp - 1]` and subtracts 1 from `sp`; at 0 it does nothing. -/
theorem State.pop_cases :
    (0 < s.sp.val ∧ s.pop = some (s.readMem (s.sp.val - 1), s.setSp (s.sp.val - 1))) ∨
      (s.sp.val = 0 ∧ s.pop = none) := by
  unfold State.pop
  split
  · rename_i h; exact .inr ⟨h, rfl⟩
  · rename_i h; exact .inl ⟨by omega, rfl⟩

/-- The taken call: pushes and jumps below the end of memory, takes `StackOverflow` at it. -/
theorem callTo_cases (t : RegIdx) :
    (s.sp.val < 65536 ∧ callTo t s =
        ((s.writeMem s.sp.val (returnWord s.pc)).setSp (s.sp.val + 1)).jumpTo (jumpTarget (s.readReg t))) ∨
      (s.sp.val = 65536 ∧ callTo t s = s.raise .stackOverflow) := by
  rcases State.push_cases (s := s) (returnWord s.pc) with ⟨h, hp⟩ | ⟨h, hp⟩
  · exact .inl ⟨h, by simp [callTo, hp]⟩
  · exact .inr ⟨h, by simp [callTo, hp]⟩

/-- The distance: defined exactly for 0 to 15. -/
theorem shiftDistance_cases (v : Word) :
    (∃ n : Nat, n ≤ 15 ∧ s16 v = n ∧ shiftDistance v = some n) ∨
      ((s16 v < 0 ∨ 15 < s16 v) ∧ shiftDistance v = none) := by
  unfold shiftDistance
  split
  · rename_i h; exact .inl ⟨(s16 v).toNat, by omega, by omega, rfl⟩
  · rename_i h; exact .inr ⟨by omega, rfl⟩

/-- The common part of `SFT`: a register write and `pc + 1`, or the distance fault. -/
theorem shiftWith_cases (f : Word → Nat → Word) (t a b : RegIdx) :
    (∃ n : Nat, n ≤ 15 ∧ s16 (s.readReg b) = n ∧
        shiftWith f t a b s = .next (s.writeReg t (f (s.readReg a) n)).advance) ∨
      ((s16 (s.readReg b) < 0 ∨ 15 < s16 (s.readReg b)) ∧
        shiftWith f t a b s = .next (s.raise .shiftDistanceOutOfRange)) := by
  rcases shiftDistance_cases (s.readReg b) with ⟨n, hn, hs, hd⟩ | ⟨hs, hd⟩
  · exact .inl ⟨n, hn, hs, by simp [shiftWith, hd]⟩
  · exact .inr ⟨hs, by simp [shiftWith, hd]⟩

/-- `RET`: pops and jumps, or the underflow fault. -/
theorem execRet_cases :
    (0 < s.sp.val ∧ execRet s =
        .next ((s.setSp (s.sp.val - 1)).jumpTo (returnTarget (s.readMem (s.sp.val - 1))))) ∨
      (s.sp.val = 0 ∧ execRet s = .next (s.raise .stackUnderflow)) := by
  rcases State.pop_cases (s := s) with ⟨h, hp⟩ | ⟨h, hp⟩
  · exact .inl ⟨h, by simp [execRet, hp]⟩
  · exact .inr ⟨h, by simp [execRet, hp]⟩

end Sys2Proof.Machine
end

