-- ==== Sys2Proof/Laws/Exec.lean ====
section
/-! SUPPORT. Everything an executed instruction can do to the state, said once. -/

namespace Sys2Proof.Machine

variable {s s' : State} {i : Instr}

/-- `JAL`: not taken it advances, taken it calls or overflows. -/
theorem execJal_cases (t : RegIdx) (f : Cond) (a b : RegIdx) :
    (taken f (s.readReg a) (s.readReg b) = false ∧ execJal t f a b s = .next s.advance) ∨
      (taken f (s.readReg a) (s.readReg b) = true ∧ s.sp.val < 65536 ∧ execJal t f a b s =
        .next (((s.writeMem s.sp.val (returnWord s.pc)).setSp (s.sp.val + 1)).jumpTo (jumpTarget (s.readReg t)))) ∨
      (taken f (s.readReg a) (s.readReg b) = true ∧ s.sp.val = 65536 ∧
        execJal t f a b s = .next (s.raise .stackOverflow)) := by
  cases ht : taken f (s.readReg a) (s.readReg b) with
  | false => exact .inl ⟨rfl, by simp [execJal, ht]⟩
  | true =>
    rcases callTo_cases (s := s) t with ⟨h, hc⟩ | ⟨h, hc⟩
    · exact .inr (.inl ⟨rfl, h, by simp [execJal, ht, hc]⟩)
    · exact .inr (.inr ⟨rfl, h, by simp [execJal, ht, hc]⟩)

/-- The condition as a proposition and as the test the jumps make. -/
theorem taken_iff (f : Cond) (a b : RegIdx) :
    taken f (s.readReg a) (s.readReg b) = true ↔ s.CondHolds f a b := by
  cases f with
  | always => simp [taken, State.CondHolds]
  | less => simp [taken, State.CondHolds]
  | greater => simp [taken, State.CondHolds]
  | equal =>
    simp only [taken, State.CondHolds, decide_eq_true_eq]
    exact ⟨fun h k _ => by rw [h], fun h => BitVec.eq_of_getLsbD_eq h⟩

/-- The whole effect of each kind of instruction. -/
theorem exec_cases (h : exec i s = .next s') :
    (∃ t v, destinationOf i = some t ∧ s' = (s.writeReg t v).advance) ∨
    (∃ a b, i = .store a b ∧ s' = (s.writeMem (effectiveAddress (s.readReg b)) (s.readReg a)).advance) ∨
    (i = .nop ∧ s' = s.advance) ∨
    (∃ t f a b, i = .j t f a b ∧
      s' = if taken f (s.readReg a) (s.readReg b) then s.jumpTo (jumpTarget (s.readReg t)) else s.advance) ∨
    (∃ t f a b, i = .jal t f a b ∧
      ((taken f (s.readReg a) (s.readReg b) = false ∧ s' = s.advance) ∨
       (taken f (s.readReg a) (s.readReg b) = true ∧ s.sp.val < 65536 ∧
         s' = ((s.writeMem s.sp.val (returnWord s.pc)).setSp (s.sp.val + 1)).jumpTo (jumpTarget (s.readReg t))) ∨
       (taken f (s.readReg a) (s.readReg b) = true ∧ s.sp.val = 65536 ∧ s' = s.raise .stackOverflow))) ∨
    (∃ a, i = .ssp a ∧ s' = (s.setSp (stackPointerOf (s.readReg a))).advance) ∨
    (i = .ret ∧
      ((0 < s.sp.val ∧ s' = (s.setSp (s.sp.val - 1)).jumpTo (returnTarget (s.readMem (s.sp.val - 1)))) ∨
       (s.sp.val = 0 ∧ s' = s.raise .stackUnderflow))) ∨
    (∃ b, IsShiftBy i b ∧ (s16 (s.readReg b) < 0 ∨ 15 < s16 (s.readReg b)) ∧
      s' = s.raise .shiftDistanceOutOfRange) ∨
    (∃ t a b, i = .sftInvalid t a b ∧ s' = s.raise .invalidShiftOperator) ∨
    (∃ t p, i = .outPort t p ∧ s' = ((s.writePort p (s.readReg t)).emit (s.readReg t)).advance) ∨
    (i = .halt ∧ s' = s.setHalted) := by
  have shift : ∀ (f : Word → Nat → Word) (t a b : RegIdx), IsShiftBy i b → destinationOf i = some t →
      shiftWith f t a b s = .next s' → (∃ t v, destinationOf i = some t ∧ s' = (s.writeReg t v).advance) ∨
        ∃ b, IsShiftBy i b ∧ (s16 (s.readReg b) < 0 ∨ 15 < s16 (s.readReg b)) ∧
          s' = s.raise .shiftDistanceOutOfRange := by
    intro f t a b hi ht hx
    rcases shiftWith_cases (s := s) f t a b with ⟨n, _, _, he⟩ | ⟨hr, he⟩
    · rw [he] at hx; cases hx; exact .inl ⟨t, _, ht, rfl⟩
    · rw [he] at hx; cases hx; exact .inr ⟨b, hi, hr, rfl⟩
  cases i with
  | nop => cases h; simp
  | load t b => cases h; exact .inl ⟨t, _, rfl, rfl⟩
  | store a b => cases h; exact .inr (.inl ⟨a, b, rfl, rfl⟩)
  | add t a b => cases h; exact .inl ⟨t, _, rfl, rfl⟩
  | addi t imm => cases h; exact .inl ⟨t, _, rfl, rfl⟩
  | sub t a b => cases h; exact .inl ⟨t, _, rfl, rfl⟩
  | and t a b => cases h; exact .inl ⟨t, _, rfl, rfl⟩
  | xor t a b => cases h; exact .inl ⟨t, _, rfl, rfl⟩
  | j t f a b => cases h; exact .inr (.inr (.inr (.inl ⟨t, f, a, b, rfl, rfl⟩)))
  | jal t f a b =>
    refine .inr (.inr (.inr (.inr (.inl ⟨t, f, a, b, rfl, ?_⟩))))
    rcases execJal_cases (s := s) t f a b with ⟨h1, he⟩ | ⟨h1, h2, he⟩ | ⟨h1, h2, he⟩ <;>
      rw [exec, he] at h <;> cases h
    · exact .inl ⟨h1, rfl⟩
    · exact .inr (.inl ⟨h1, h2, rfl⟩)
    · exact .inr (.inr ⟨h1, h2, rfl⟩)
  | ssp a => cases h; exact .inr (.inr (.inr (.inr (.inr (.inl ⟨a, rfl, rfl⟩)))))
  | set t imm => cases h; exact .inl ⟨t, _, rfl, rfl⟩
  | ret =>
    refine .inr (.inr (.inr (.inr (.inr (.inr (.inl ⟨rfl, ?_⟩))))))
    rcases execRet_cases (s := s) with ⟨h1, he⟩ | ⟨h1, he⟩ <;> rw [exec, he] at h <;> cases h
    · exact .inl ⟨h1, rfl⟩
    · exact .inr ⟨h1, rfl⟩
  | sftLeft t a b =>
    rcases shift shiftLeft t a b ⟨t, a, by simp⟩ rfl h with h | h
    · exact .inl h
    · exact .inr (.inr (.inr (.inr (.inr (.inr (.inr (.inl h)))))))
  | sftLogicalRight t a b =>
    rcases shift shiftLogicalRight t a b ⟨t, a, by simp⟩ rfl h with h | h
    · exact .inl h
    · exact .inr (.inr (.inr (.inr (.inr (.inr (.inr (.inl h)))))))
  | sftArithRight t a b =>
    rcases shift shiftArithRight t a b ⟨t, a, by simp⟩ rfl h with h | h
    · exact .inl h
    · exact .inr (.inr (.inr (.inr (.inr (.inr (.inr (.inl h)))))))
  | sftInvalid t a b => cases h; simp
  | inPort t p => cases h; exact .inl ⟨t, _, rfl, rfl⟩
  | outPort t p => cases h; simp
  | halt => cases h; simp

end Sys2Proof.Machine
end

