-- ==== Sys2Proof/Laws/PerInstr.lean ====
section
/-! SUPPORT. The family EncodesItsRow: an instruction's word belongs to its own row of the opcode table. -/

namespace Sys2Proof.Laws.EncodesItsRow

open Sys2Proof

/-- The encoded word matches the opcode table's row of the instruction's mnemonic (30_encoding.md R56, R61). -/
def Statement (i : Instr) : Prop :=
  ∃ row ∈ opcodeRows, row.mnemonic = i.mnemonic ∧ encode i &&& row.mask = row.value

theorem place9_opcode (v : Fin 8) : place v 9 &&& 0xF000 = 0 := by revert v; decide
theorem place6_opcode (v : Fin 8) : place v 6 &&& 0xF000 = 0 := by revert v; decide
theorem place3_opcode (v : Fin 8) : place v 3 &&& 0xF000 = 0 := by revert v; decide
theorem place9_shift (v : Fin 8) : place v 9 &&& 0xF006 = 0 := by revert v; decide
theorem place6_shift (v : Fin 8) : place v 6 &&& 0xF006 = 0 := by revert v; decide
theorem place3_shift (v : Fin 8) : place v 3 &&& 0xF006 = 0 := by revert v; decide
theorem place9_port (v : Fin 8) : place v 9 &&& 0xF020 = 0 := by revert v; decide
theorem place6_port (v : Fin 8) : place v 6 &&& 0xF020 = 0 := by revert v; decide
theorem placeFlag_opcode (f : Cond) : place f.flag 1 &&& 0xF000 = 0 := by cases f <;> decide

theorem placeImm8_opcode (imm : Int) : placeImm8 imm &&& 0xF000 = 0 := by
  apply BitVec.eq_of_getLsbD_eq
  intro k hk
  simp only [placeImm8, BitVec.getLsbD_and, BitVec.getLsbD_setWidth]
  by_cases h : k < 8
  · have : (0xF000#16).getLsbD k = false := by interval_cases k <;> rfl
    simp [this]
  · simp [BitVec.getLsbD_of_ge (BitVec.ofInt 8 imm) k (by omega)]

theorem and_or_distrib (p q m : Word) : (p ||| q) &&& m = (p &&& m) ||| (q &&& m) := by
  apply BitVec.eq_of_getLsbD_eq
  intro k _
  simp [Bool.and_or_distrib_right]

theorem nop : Statement .nop := ⟨⟨"NOP", 0x0000, 0xF000⟩, by decide, rfl, by decide⟩
theorem load (t b : RegIdx) : Statement (.load t b) :=
  ⟨⟨"LOAD", 0x1000, 0xF000⟩, by decide, rfl, by
    simp only [encode, and_or_distrib, place9_opcode, place3_opcode]; decide⟩
theorem store (a b : RegIdx) : Statement (.store a b) :=
  ⟨⟨"STORE", 0x2000, 0xF000⟩, by decide, rfl, by
    simp only [encode, and_or_distrib, place6_opcode, place3_opcode]; decide⟩
theorem add (t a b : RegIdx) : Statement (.add t a b) :=
  ⟨⟨"ADD", 0x3000, 0xF000⟩, by decide, rfl, by
    simp only [encode, and_or_distrib, place9_opcode, place6_opcode, place3_opcode]; decide⟩
theorem addi (t : RegIdx) (imm : Int) : Statement (.addi t imm) :=
  ⟨⟨"ADDI", 0x4000, 0xF000⟩, by decide, rfl, by
    simp only [encode, and_or_distrib, place9_opcode, placeImm8_opcode]; decide⟩
theorem sub (t a b : RegIdx) : Statement (.sub t a b) :=
  ⟨⟨"SUB", 0x5000, 0xF000⟩, by decide, rfl, by
    simp only [encode, and_or_distrib, place9_opcode, place6_opcode, place3_opcode]; decide⟩
theorem and (t a b : RegIdx) : Statement (.and t a b) :=
  ⟨⟨"AND", 0x6000, 0xF000⟩, by decide, rfl, by
    simp only [encode, and_or_distrib, place9_opcode, place6_opcode, place3_opcode]; decide⟩
theorem xor (t a b : RegIdx) : Statement (.xor t a b) :=
  ⟨⟨"XOR", 0x7000, 0xF000⟩, by decide, rfl, by
    simp only [encode, and_or_distrib, place9_opcode, place6_opcode, place3_opcode]; decide⟩
theorem j (t : RegIdx) (f : Cond) (a b : RegIdx) : Statement (.j t f a b) :=
  ⟨⟨"J", 0x8000, 0xF000⟩, by decide, rfl, by
    simp only [encode, and_or_distrib, place9_opcode, place6_opcode, place3_opcode, placeFlag_opcode]; decide⟩
theorem jal (t : RegIdx) (f : Cond) (a b : RegIdx) : Statement (.jal t f a b) :=
  ⟨⟨"JAL", 0x9000, 0xF000⟩, by decide, rfl, by
    simp only [encode, and_or_distrib, place9_opcode, place6_opcode, place3_opcode, placeFlag_opcode]; decide⟩
theorem ssp (a : RegIdx) : Statement (.ssp a) :=
  ⟨⟨"SSP", 0xA000, 0xF000⟩, by decide, rfl, by
    simp only [encode, and_or_distrib, place6_opcode]; decide⟩
theorem set (t : RegIdx) (imm : Int) : Statement (.set t imm) :=
  ⟨⟨"SET", 0xB000, 0xF000⟩, by decide, rfl, by
    simp only [encode, and_or_distrib, place9_opcode, placeImm8_opcode]; decide⟩
theorem ret : Statement .ret := ⟨⟨"RET", 0xC000, 0xF000⟩, by decide, rfl, by decide⟩
theorem sftLeft (t a b : RegIdx) : Statement (.sftLeft t a b) :=
  ⟨⟨"SFT.LEFT", 0xD000, 0xF006⟩, by decide, rfl, by
    simp only [encode, and_or_distrib, place9_shift, place6_shift, place3_shift]; decide⟩
theorem sftLogicalRight (t a b : RegIdx) : Statement (.sftLogicalRight t a b) :=
  ⟨⟨"SFT.LOGICAL_RIGHT", 0xD002, 0xF006⟩, by decide, rfl, by
    simp only [encode, and_or_distrib, place9_shift, place6_shift, place3_shift]; decide⟩
theorem sftArithRight (t a b : RegIdx) : Statement (.sftArithRight t a b) :=
  ⟨⟨"SFT.ARITH_RIGHT", 0xD004, 0xF006⟩, by decide, rfl, by
    simp only [encode, and_or_distrib, place9_shift, place6_shift, place3_shift]; decide⟩
theorem sftInvalid (t a b : RegIdx) : Statement (.sftInvalid t a b) :=
  ⟨⟨"SFT.INVALID", 0xD006, 0xF006⟩, by decide, rfl, by
    simp only [encode, and_or_distrib, place9_shift, place6_shift, place3_shift]; decide⟩
theorem inPort (t : RegIdx) (p : Port) : Statement (.inPort t p) :=
  ⟨⟨"IN", 0xE000, 0xF020⟩, by decide, rfl, by
    simp only [encode, and_or_distrib, place9_port, place6_port]; decide⟩
theorem outPort (t : RegIdx) (p : Port) : Statement (.outPort t p) :=
  ⟨⟨"OUT", 0xE020, 0xF020⟩, by decide, rfl, by
    simp only [encode, and_or_distrib, place9_port, place6_port]; decide⟩
theorem halt : Statement .halt := ⟨⟨"HALT", 0xF000, 0xF000⟩, by decide, rfl, by decide⟩

end Sys2Proof.Laws.EncodesItsRow
end

