-- ==== Sys2Proof/Laws/Step.lean ====
section
/-! SUPPORT. What one step can do, and the memory operations' canonical form lifted to State. -/

namespace Sys2Proof.Machine

variable {s s' : State}

/-- A running step, by what it fetched. -/
theorem step_running (h : s.status = .running) :
    step s = match s.fetchWord with
      | none => .next (s.raise .fetchOutOfRange)
      | some w => runWord w s := by
  simp only [step, h] <;> cases s.fetchWord <;> rfl

/-- Everything a step that answers a next state can have done. -/
theorem step_cases (h : step s = .next s') :
    s.status = .running ∧
      ((s.fetchWord = none ∧ s' = s.raise .fetchOutOfRange) ∨
        (∃ w, s.fetchWord = some w ∧ decode w = .error .illegalOpcode ∧ s' = s.raise .illegalOpcode) ∨
        ∃ w i, s.fetchWord = some w ∧ decode w = .ok i ∧ exec i s = .next s') := by
  cases hs : s.status with
  | halted => simp [step, hs] at h
  | faulted c p w => simp [step, hs] at h
  | running =>
    rw [step_running hs] at h
    refine ⟨rfl, ?_⟩
    cases hf : s.fetchWord with
    | none =>
      rw [hf] at h
      exact .inl ⟨rfl, by simpa using h.symm⟩
    | some w =>
      rw [hf] at h
      refine .inr ?_
      cases hd : decode w with
      | error e =>
        cases e
        exact .inl ⟨w, rfl, hd, by simpa [runWord, hd] using h.symm⟩
      | ok i => exact .inr ⟨w, i, rfl, hd, by simpa [runWord, hd] using h⟩

/-- Every memory write of a state inside the space keeps data memory's canonical form. -/
theorem State.writeMem_wf {a : Nat} {v : Word} (h : Memory.wf Memory.unlisted Config.memSize s.mem)
    (ha : a < Config.memSize) : Memory.wf Memory.unlisted Config.memSize (s.writeMem a v).mem :=
  Memory.write_wf h ha

/-- Placing a word where `pc` points keeps the store's canonical form. -/
theorem State.storeWordAtPc_wf {w : Word} (h : Memory.wf Memory.unloaded s.storeSize s.store)
    (hp : 0 ≤ s.pc ∧ s.pc < s.storeSize) :
    Memory.wf Memory.unloaded s.storeSize (s.storeWordAtPc w).store :=
  Memory.write_wf h (by omega)

/-- The host's placed word is what the next step runs. -/
theorem step_withFetchWord (nbits w : Nat) (hs : s.status = .running) (hp : 0 ≤ s.pc ∧ s.pc < s.storeSize) :
    step (s.withFetchWord nbits w) =
      runWord (BitVec.ofNat 16 (w % 2 ^ nbits)) (s.withFetchWord nbits w) := by
  have hw : s.withFetchWord nbits w = s.storeWordAtPc (BitVec.ofNat 16 (w % 2 ^ nbits)) := by
    simp [State.withFetchWord, hp]
  rw [hw, step_running (by simpa using hs), State.fetchWord_storeWordAtPc _ hp]

/-- Data memory right after reset is in canonical form. -/
theorem State.reset_mem_wf : Memory.wf Memory.unlisted Config.memSize State.reset.mem := Memory.nil_wf

/-- The instruction store right after reset is in canonical form. -/
theorem State.reset_store_wf : Memory.wf Memory.unloaded State.reset.storeSize State.reset.store := Memory.nil_wf

/-- An effective address always names a cell. -/
theorem effectiveAddress_lt (v : Word) : effectiveAddress v < Config.memSize := v.isLt

end Sys2Proof.Machine
end

