-- ==== Sys2Proof/Laws/Run.lean ====
section
/-! SUPPORT. Unfolding the host's run by one step of the machine. -/

namespace Sys2Proof.Machine

variable {s s' s1 : State} {n : Nat}

theorem run_zero : Host.Core.run Sys2Proof.core 0 s = .next s := rfl

/-- A run whose first step goes on is the run of the rest. -/
theorem run_succ (h : step s = .next s1) :
    Host.Core.run Sys2Proof.core (n + 1) s = Host.Core.run Sys2Proof.core n s1 := by
  have h' : Sys2Proof.core.step s = .next s1 := h
  simp only [Host.Core.run, h']

/-- A run of one or more steps that ends in a state went on at its first step. -/
theorem run_succ_cases (h : Host.Core.run Sys2Proof.core (n + 1) s = .next s') :
    ∃ s1, step s = .next s1 ∧ Host.Core.run Sys2Proof.core n s1 = .next s' := by
  cases hs : step s with
  | next t => exact ⟨t, rfl, (run_succ hs).symm.trans h⟩
  | fault r =>
    have h' : Sys2Proof.core.step s = .fault r := hs
    simp [Host.Core.run, h'] at h
  | refused r =>
    have h' : Sys2Proof.core.step s = .refused r := hs
    simp [Host.Core.run, h'] at h

end Sys2Proof.Machine
end

