-- ==== Sys2Proof/Tests/Slice0.lean ====
section
/-! SUPPORT. Tests: the refusals of WellFormed, the words of 30_encoding.md decoded, the vectors of 95_test_vectors.md, and a
witness for the hypotheses of each statement. -/

namespace Sys2Proof.Tests

open Sys2Proof Sys2Proof.Machine

/-! ## WellFormed refuses what it checks for (30_encoding.md R83: `ADDI r0 200` is out of range) -/

theorem test_wellFormed_addi_refuses_200 : (Instr.addi 0 200).wellFormed = false := by decide
theorem test_wellFormed_addi_refuses_below : (Instr.addi 0 (-129)).wellFormed = false := by decide
theorem test_wellFormed_set_refuses_128 : (Instr.set 0 128).wellFormed = false := by decide
theorem test_wellFormed_edges : (Instr.addi 7 127).wellFormed && (Instr.set 7 (-128)).wellFormed = true := by decide

/-! ## Decoding, each word written bit by bit from 30_encoding.md R52 and R53 -/

theorem test_decode_nop : decode 0b0000000000000000 = .ok .nop := rfl
theorem test_decode_load : decode 0b0001110000011000 = .ok (.load 6 3) := rfl
theorem test_decode_store : decode 0b0010000010111000 = .ok (.store 2 7) := rfl
theorem test_decode_add : decode 0b0011111010001000 = .ok (.add 7 2 1) := rfl
theorem test_decode_addi : decode 0b0100111001100100 = .ok (.addi 7 100) := rfl
theorem test_decode_sub : decode 0b0101000001010000 = .ok (.sub 0 1 2) := rfl
theorem test_decode_and : decode 0b0110101110110000 = .ok (.and 5 6 6) := rfl
theorem test_decode_xor : decode 0b0111111111111000 = .ok (.xor 7 7 7) := rfl
theorem test_decode_j : decode 0b1000111001010110 = .ok (.j 7 .greater 1 2) := rfl
theorem test_decode_jal : decode 0b1001011000001100 = .ok (.jal 3 .equal 0 1) := rfl
theorem test_decode_ssp : decode 0b1010000111000000 = .ok (.ssp 7) := rfl
theorem test_decode_set : decode 0b1011101011111001 = .ok (.set 5 (-7)) := rfl
theorem test_decode_ret : decode 0b1100000000000000 = .ok .ret := rfl
theorem test_decode_sftLeft : decode 0b1101000001010000 = .ok (.sftLeft 0 1 2) := rfl
theorem test_decode_sftLogicalRight : decode 0b1101000001010010 = .ok (.sftLogicalRight 0 1 2) := rfl
theorem test_decode_sftArithRight : decode 0b1101010000001100 = .ok (.sftArithRight 2 0 1) := rfl
theorem test_decode_sftInvalid : decode 0b1101000001010110 = .ok (.sftInvalid 0 1 2) := rfl
theorem test_decode_inPort : decode 0b1110010111000000 = .ok (.inPort 2 7) := rfl
theorem test_decode_outPort : decode 0b1110001111100000 = .ok (.outPort 1 7) := rfl
theorem test_decode_halt : decode 0b1111000000000000 = .ok .halt := rfl

/-- Non-canonical words (vectors LS3, AL10, CF9, IO3, SY4, SH17). -/
theorem test_decode_ignores_unused_bits :
    decode 0x11CF = .ok (.load 0 1) ∧ decode 0x4701 = .ok (.addi 3 1) ∧ decode 0x8401 = .ok (.j 2 .always 0 0) ∧
      decode 0xE0BF = .ok (.outPort 0 2) ∧ decode 0xFFFF = .ok .halt ∧ decode 0xD057 = .ok (.sftInvalid 0 1 2) :=
  ⟨rfl, rfl, rfl, rfl, rfl, rfl⟩

/-- Flag 0 with `a = 3`, `b = 1`, laid out by R53: the fields are read and written back (R58, R61's law; log 38). -/
theorem test_flag0_keeps_fields :
    decode 0b1000010011001000 = .ok (.j 2 .always 3 1) ∧ encode (.j 2 .always 3 1) = 0b1000010011001000 := by decide

theorem test_decodeBits_refuses_wide : decodeBits 0x10000 = .error .illegalOpcode := rfl
theorem test_decodeTableWord_out : decodeTableWord 16 0xE0A0 = some (.outPort 0 2) := rfl

/-- The codes of 60_exceptions.md R180. -/
theorem test_fault_codes :
    [FaultCause.illegalOpcode, .invalidShiftOperator, .fetchOutOfRange, .stackOverflow, .stackUnderflow,
      .shiftDistanceOutOfRange].map FaultCause.code = [1, 2, 3, 4, 5, 6] := by decide

/-! ## Vectors of 95_test_vectors.md part 2 -/

/-- The start state of part 2's conventions. -/
def start : State where
  x := Vector.replicate 8 0
  pc := 10
  sp := 0x0100
  mem := []
  io := Vector.replicate 8 0
  out := []
  status := .running
  store := []
  storeSize := 256

/-- One step on the word, placed at `pc`, ends in a next state the check accepts. -/
def stepGives (w : Nat) (s : State) (check : State → Bool) : Bool :=
  match step (s.withFetchWord 16 w) with
  | .next s' => check s'
  | .fault _ => false
  | .refused _ => false

theorem test_LS1_load :
    stepGives 0x1008 ((start.writeReg 1 0x0010).writeMem 0x0010 0x1234)
      (fun s => s.readReg 0 == 0x1234 && s.pc == 11) = true := by decide
theorem test_LS2_load_top_cell_own_register :
    stepGives 0x1410 ((start.writeReg 2 0xFFFF).writeMem 0xFFFF 0x00AB) (fun s => s.readReg 2 == 0x00AB) = true := by decide
theorem test_LS4_store :
    stepGives 0x2008 ((start.writeReg 0 0xBEEF).writeReg 1 0x8000)
      (fun s => s.mem == [(32768, 0xBEEF)] && s.readReg 0 == 0xBEEF) = true := by decide
theorem test_LS5_store_own_address :
    stepGives 0x20D8 (start.writeReg 3 0x0042) (fun s => s.mem == [(0x42, 0x0042)]) = true := by decide
theorem test_AL1_add_wraps_signed :
    stepGives 0x3050 ((start.writeReg 1 0x7FFF).writeReg 2 1) (fun s => s.readReg 0 == 0x8000 && s.pc == 11) = true := by decide
theorem test_AL4_add_own_register :
    stepGives 0x3248 (start.writeReg 1 0x4001) (fun s => s.readReg 1 == 0x8002) = true := by decide
theorem test_AL6_addi_negative :
    stepGives 0x46FE (start.writeReg 3 5) (fun s => s.readReg 3 == 3) = true := by decide
theorem test_AL8_addi_wraps :
    stepGives 0x4680 (start.writeReg 3 0x8000) (fun s => s.readReg 3 == 0x7F80) = true := by decide
theorem test_AL11_sub :
    stepGives 0x5050 ((start.writeReg 1 3).writeReg 2 5) (fun s => s.readReg 0 == 0xFFFE) = true := by decide
theorem test_AL13_sub_most_negative :
    stepGives 0x5050 (start.writeReg 2 0x8000) (fun s => s.readReg 0 == 0x8000) = true := by decide
theorem test_AL15_and :
    stepGives 0x6050 ((start.writeReg 1 0x0FF0).writeReg 2 0x00FF) (fun s => s.readReg 0 == 0x00F0) = true := by decide
theorem test_AL19_xor_complement :
    stepGives 0x7050 ((start.writeReg 1 0x1234).writeReg 2 0xFFFF) (fun s => s.readReg 0 == 0xEDCB) = true := by decide
theorem test_AL20_set_discards_old :
    stepGives 0xB005 (start.writeReg 0 0xFFFF) (fun s => s.readReg 0 == 5 && s.out == []) = true := by decide
theorem test_AL23_set_sign_extends :
    stepGives 0xB480 start (fun s => s.readReg 2 == 0xFF80) = true := by decide
theorem test_CF4_j_less_is_signed_without_overflow :
    stepGives 0x8E52 (((start.writeReg 1 0x8000).writeReg 2 0x7FFF).writeReg 7 0x20) (fun s => s.pc == 32) = true := by decide
theorem test_CF10_j_negative_target :
    stepGives 0x8400 (start.writeReg 2 0xFFFB) (fun s => s.pc == -5 && s.status == .running) = true := by decide
theorem test_CF15_jal_last_cell :
    stepGives 0x9600 (((start.jumpTo 4).setSp 65535).writeReg 3 9)
      (fun s => s.mem == [(65535, 4)] && s.sp == 65536 && s.pc == 9) = true := by decide
theorem test_CF16_jal_overflow :
    stepGives 0x9600 (((start.jumpTo 4).setSp 65536).writeReg 3 9)
      (fun s => s.status == .faulted .stackOverflow 4 (some 0x9600) && s.pc == 4 && s.mem == []) = true := by decide
theorem test_CF19_ssp_unsigned :
    stepGives 0xA100 (start.writeReg 4 0xFFFF) (fun s => s.sp == 65535) = true := by decide
theorem test_CF21_ret :
    stepGives 0xC000 (((start.jumpTo 14).setSp 0x0101).writeMem 0x0100 4)
      (fun s => s.sp == 0x0100 && s.pc == 5 && s.mem == [(0x0100, 4)]) = true := by decide
theorem test_CF23_ret_signed :
    stepGives 0xC000 (((start.jumpTo 14).setSp 1).writeMem 0 0xFFFF) (fun s => s.sp == 0 && s.pc == 0) = true := by decide
theorem test_SH3_shift_left :
    stepGives 0xD050 ((start.writeReg 1 0xFFFF).writeReg 2 15) (fun s => s.readReg 0 == 0x8000) = true := by decide
theorem test_SH15_shift_distance_16 :
    stepGives 0xD050 ((start.writeReg 1 1).writeReg 2 16)
      (fun s => s.status == .faulted .shiftDistanceOutOfRange 10 (some 0xD050) && s.readReg 0 == 0) = true := by decide
theorem test_SH6_shift_logical_right :
    stepGives 0xD052 ((start.writeReg 1 0x8000).writeReg 2 1) (fun s => s.readReg 0 == 0x4000) = true := by decide
theorem test_SH11_shift_arith_right_rounds_down :
    stepGives 0xD054 ((start.writeReg 1 0xFFFD).writeReg 2 1) (fun s => s.readReg 0 == 0xFFFE) = true := by decide
theorem test_SH14_invalid_operator_before_distance :
    stepGives 0xD056 ((start.writeReg 1 1).writeReg 2 16)
      (fun s => s.status == .faulted .invalidShiftOperator 10 (some 0xD056) && s.pc == 10) = true := by decide
theorem test_IO2_in :
    stepGives 0xE280 (start.writePort 2 0xFFFF) (fun s => s.readReg 1 == 0xFFFF && s.out == []) = true := by decide
theorem test_IO5_out_emits_signed :
    stepGives 0xEBE0 (start.writeReg 5 0x8000) (fun s => s.readPort 7 == 0x8000 && s.out == [-32768]) = true := by decide
theorem test_SY1_nop : stepGives 0x0000 (start.jumpTo 7) (fun s => s.pc == 8) = true := by decide
theorem test_SY3_halt : stepGives 0xF000 (start.jumpTo 1) (fun s => s.status == .halted && s.pc == 1) = true := by decide
theorem test_FT1_fetch_at_the_end :
    stepGives 0 (start.jumpTo 256) (fun s => s.status == .faulted .fetchOutOfRange 256 none && s.pc == 256) = true := by decide

/-- The first instruction after reset is the placed one. -/
theorem test_reset_runs_the_placed_word : stepGives 0xB0FF State.reset (fun s => s.readReg 0 == 0xFFFF && s.pc == 1) = true := by
  decide

/-- Loading `[0xB001]`: index 0 holds it, the next holds `NOP` (S10, P9). -/
theorem test_launch_loads_the_program :
    (State.launch { Launch.atReset with program := [0xB001], storeSize := 4 }).readStore 0 = 0xB001 ∧
      (State.launch { Launch.atReset with program := [0xB001], storeSize := 4 }).readStore 1 = 0 := by decide

/-! ## Witnesses: a concrete state and operands for the hypotheses of each statement that has some -/

/-- `start` with a word placed at `pc`. -/
def at_pc (w : Nat) (s : State) : State := s.withFetchWord 16 w

theorem about (w : Nat) (i : Instr) (s : State) (hs : s.status = .running)
    (hp : 0 ≤ s.pc ∧ s.pc < s.storeSize) (hd : decode (BitVec.ofNat 16 (w % 2 ^ 16)) = .ok i) :
    (at_pc w s).AboutToRun i := by
  have h : at_pc w s = s.storeWordAtPc (BitVec.ofNat 16 (w % 2 ^ 16)) := by simp [at_pc, State.withFetchWord, hp]
  rw [h]
  exact ⟨hs, _, State.fetchWord_storeWordAtPc _ hp, hd⟩

theorem start_inv : start.Inv where
  mem_wf := by decide
  store_wf := by decide
  size_admitted := by decide
  pc_range := by decide
  out_range := by decide
  fault_record := by intro c p w h; cases h

theorem witness_NoWordHasAnIllegalOpcode :
    65536 ≤ 0x10000 ∧ step start = .next start.advance := ⟨by decide, rfl⟩
theorem witness_DecodeIgnoresBitsInNoField : (0x11CF : Word) &&& fieldMask 0x1008 = 0x1008 &&& fieldMask 0x1008 := by decide
theorem witness_FieldsStandAtTheirBits :
    (0xD057 : Word).toNat / 4096 ≠ 4 ∧ (0xD057 : Word).toNat / 4096 ≠ 11 := by decide
theorem witness_ImmediateIsTheSignedLowByte :
    (0x4680 : Word).toNat / 4096 = 4 ∧ (0xB47F : Word).toNat / 4096 = 11 ∧ (0xE1C0 : Word).toNat / 4096 = 14 ∧
      lowByteSigned 0x4680 = -128 ∧ lowByteSigned 0xB47F = 127 := by decide
theorem witness_DecodeOfEncodeIsTheInstruction :
    (Instr.addi 3 (-128)).wellFormed = true ∧ (Instr.set 3 127).wellFormed = true := by decide
theorem witness_EncodeOfDecodeClearsBitsInNoField : decode 0x5057 = .ok (.sub 0 1 2) := rfl
theorem witness_ResetCreatesTheLaunchState : 1 ≤ Launch.atReset.storeSize := by decide
/-- A launch with values of its own: a program that fills its store, a listed cell, and a store of the smallest size. -/
theorem witness_LaunchStatesMeetTheInvariant :
    Launch.Admitted
      { regInit := Vector.replicate 8 0xAAAA, memInit := [(65535, 0xDEAD)], ioInit := Vector.replicate 8 0x5555,
        storeSize := 1, program := [0xF000] } :=
  ⟨by decide, by decide, by decide, by decide⟩
theorem witness_StepKeepsTheInvariant : start.Inv ∧ step start = .next start.advance := ⟨start_inv, rfl⟩
theorem witness_StepRunsTheDecodedInstruction :
    start.status = .running ∧ 0 ≤ start.pc ∧ start.pc < start.storeSize ∧
      decode (start.readStore start.pc.toNat) = .ok .nop := ⟨rfl, by decide, by decide, rfl⟩
theorem witness_FinishedEngineHasNoStep :
    start.setHalted.status ≠ .running ∧ (start.raise .stackUnderflow).status ≠ .running := by decide
theorem witness_FetchOutsideTheStoreFaults :
    start.status = .running ∧ (start.jumpTo (-1)).pc < 0 ∧
      ((start.jumpTo 256).storeSize : Int) ≤ (start.jumpTo 256).pc := by decide
theorem witness_FaultsArePrecise :
    step (start.jumpTo (-1)) = .next ((start.jumpTo (-1)).raise .fetchOutOfRange) ∧
      ((start.jumpTo (-1)).raise .fetchOutOfRange).status = .faulted .fetchOutOfRange (-1) none := ⟨rfl, rfl⟩
theorem witness_FaultsAriseExactlyWhenListed :
    start.status = .running ∧ FaultCause.Arises .fetchOutOfRange (start.jumpTo 256) ∧
      FaultCause.Arises .invalidShiftOperator (at_pc 0xD056 start) ∧
      FaultCause.Arises .stackUnderflow (at_pc 0xC000 (start.setSp 0)) ∧
      FaultCause.Arises .stackOverflow (at_pc 0x9600 (start.setSp 65536)) ∧
      FaultCause.Arises .shiftDistanceOutOfRange (at_pc 0xD050 (start.writeReg 2 16)) := by
  refine ⟨rfl, .inr (by decide), ⟨0xD056, by decide, by decide⟩, ⟨?_, by decide⟩, ⟨3, .always, 0, 0, ?_, trivial, by decide⟩,
    ⟨.sftLeft 0 1 2, 2, ?_, ⟨0, 1, by simp⟩, by decide⟩⟩
  · exact about _ _ _ rfl (by decide) rfl
  · exact about _ _ _ rfl (by decide) rfl
  · exact about _ _ _ rfl (by decide) rfl
theorem witness_HaltsExactlyAtHalt : (at_pc 0xF000 start).AboutToRun .halt := about _ _ _ rfl (by decide) rfl
theorem witness_OtherInstructionsAdvancePc :
    (at_pc 0x3050 start).AboutToRun (.add 0 1 2) ∧ ¬ Redirects (.add 0 1 2) (at_pc 0x3050 start) ∧
      step (at_pc 0x3050 start) = .next (((at_pc 0x3050 start).writeReg 0 0).advance) ∧
      (((at_pc 0x3050 start).writeReg 0 0).advance).status = .running :=
  ⟨about _ _ _ rfl (by decide) rfl, by rintro (h | h | ⟨t, f, a, b, (h | h), _⟩) <;> (cases h), rfl, rfl⟩
theorem witness_RunsNeverChangeTheInstructionStore :
    Host.Core.run Sys2Proof.core 1 start = .next start.advance := run_succ (n := 0) rfl
theorem witness_OutputGrowsExactlyAtOut :
    (at_pc 0xE0A0 start).AboutToRun (.outPort 0 2) ∧ ¬ (∃ t p, start.AboutToRun (.outPort t p)) ∧
      step start = .next start.advance := by
  refine ⟨about _ _ _ rfl (by decide) rfl, ?_, rfl⟩
  rintro ⟨t, p, _, w, hw, hd⟩
  cases hw
  cases hd
theorem witness_PortsChangeOnlyByOut :
    step start = .next start.advance ∧ ∀ t, ¬ start.AboutToRun (.outPort t 2) := by
  refine ⟨rfl, ?_⟩
  rintro t ⟨_, w, hw, hd⟩
  cases hw
  cases hd
theorem witness_MemoryChangesOnlyByStoreAndCall :
    step (at_pc 0x2008 (start.writeReg 0 7)) =
        .next (((at_pc 0x2008 (start.writeReg 0 7)).writeMem 0 7).advance) ∧
      (((at_pc 0x2008 (start.writeReg 0 7)).writeMem 0 7).advance).readMem 0 ≠
        (at_pc 0x2008 (start.writeReg 0 7)).readMem 0 := ⟨rfl, by decide⟩
theorem witness_StackPointerChangesOnlyByItsInstructions :
    step (at_pc 0xA000 start) = .next ((at_pc 0xA000 start).setSp 0).advance ∧
      ((at_pc 0xA000 start).setSp 0).advance.sp ≠ (at_pc 0xA000 start).sp := ⟨rfl, by decide⟩
theorem witness_RegistersChangeOnlyAtTheDestination :
    (at_pc 0x3050 start).AboutToRun (.add 0 1 2) ∧ destinationOf (.add 0 1 2) ≠ some 1 ∧
      step (at_pc 0x3050 start) = .next (((at_pc 0x3050 start).writeReg 0 0).advance) :=
  ⟨about _ _ _ rfl (by decide) rfl, by decide, rfl⟩
/-- At the last cell and the last index a call can push. -/
theorem witness_ReturnGoesJustAfterTheCall :
    ((start.setSp 65535).jumpTo 32767).CondHolds .always 0 0 ∧ ((start.setSp 65535).jumpTo 32767).sp.val < 65536 ∧
      0 ≤ ((start.setSp 65535).jumpTo 32767).pc ∧ ((start.setSp 65535).jumpTo 32767).pc < 32768 :=
  ⟨trivial, by decide, by decide, by decide⟩
theorem witness_SelfJumpRunsForever :
    (at_pc 0x8200 (start.writeReg 1 10)).AboutToRun (.j 1 .always 0 0) ∧
      s16 ((at_pc 0x8200 (start.writeReg 1 10)).readReg 1) = (at_pc 0x8200 (start.writeReg 1 10)).pc :=
  ⟨about _ _ _ rfl (by decide) rfl, by decide⟩
theorem witness_UnfilledStoreRunsToItsEndAndFaults :
    start.status = .running ∧ 0 ≤ start.pc ∧ start.pc ≤ start.storeSize ∧
      ∀ k : Nat, start.pc ≤ k → k < start.storeSize → start.readStore k = 0 :=
  ⟨rfl, by decide, by decide, fun _ _ _ => rfl⟩
theorem witness_opcode_clauses :
    (0x3050 : Word).toNat / 4096 = 3 ∧ (0x6050 : Word).toNat / 4096 = 6 ∧ (0x7050 : Word).toNat / 4096 = 7 ∧
      (0xB480 : Word).toNat / 4096 = 11 ∧ (0x0FFF : Word).toNat / 4096 = 0 ∧ (0xFFFF : Word).toNat / 4096 = 15 := by decide
theorem witness_selector_clauses :
    (0xD051 : Word) &&& 0xF006 = 0xD000 ∧ (0xD053 : Word) &&& 0xF006 = 0xD002 ∧ (0xD055 : Word) &&& 0xF006 = 0xD004 ∧
      (0xDFFF : Word) &&& 0xF006 = 0xD006 ∧ (0xE29F : Word) &&& 0xF020 = 0xE000 ∧ (0xE0BF : Word) &&& 0xF020 = 0xE020 := by
  decide
theorem witness_SignedAndUnsignedArithmeticAgree :
    exec (.add 0 1 2) start = .next (start.writeReg 0 0).advance ∧
      exec (.sub 0 1 2) start = .next (start.writeReg 0 0).advance := ⟨rfl, rfl⟩
theorem witness_JumpGoesToTheTargetWhenTaken :
    (start.writeReg 1 1).CondHolds .less 0 1 ∧ (start.writeReg 1 1).CondHolds .greater 1 0 ∧
      start.CondHolds .equal 0 1 ∧ ¬ start.CondHolds .less 0 1 :=
  ⟨by show (0 : Int) < 1; decide, by show (0 : Int) < 1; decide, fun _ _ => rfl, by show ¬ (0 : Int) < 0; decide⟩
theorem witness_CallPushesItsOwnIndex :
    (start.setSp 65535).CondHolds .equal 0 1 ∧ (start.setSp 65535).sp.val < 65536 := ⟨fun _ _ => rfl, by decide⟩
theorem witness_UntakenCallOnlyAdvances : ¬ (start.setSp 65536).CondHolds .greater 0 1 := by
  show ¬ (0 : Int) < 0; decide
theorem witness_CallBeyondTheLastCellFaults :
    (start.setSp 65536).CondHolds .always 0 1 ∧ (start.setSp 65536).sp.val = 65536 := ⟨trivial, by decide⟩
theorem witness_RetGoesOnePastThePoppedIndex : 0 < (start.setSp 1).sp.val ∧ 0 < (start.setSp 65536).sp.val := by decide
theorem witness_RetOnAnEmptyStackFaults : (start.setSp 0).sp.val = 0 := by decide
/-- The two ends of the range the three shifts complete in. -/
theorem witness_shift_distances :
    s16 (start.readReg 2) = (0 : Nat) ∧ s16 ((start.writeReg 2 15).readReg 2) = (15 : Nat) ∧ 15 ≤ 15 := by decide
theorem witness_ShiftOutsideTheRangeFaults :
    IsShiftBy (.sftArithRight 0 1 2) 2 ∧ s16 ((start.writeReg 2 0xFFFF).readReg 2) < 0 ∧
      15 < s16 ((start.writeReg 2 16).readReg 2) := ⟨⟨0, 1, by simp⟩, by decide, by decide⟩

end Sys2Proof.Tests
end

section
/-! SUPPORT. The output events: what one step appends to `out`, and that no step reads it (10_state.md R18). -/

namespace Sys2Proof.Machine

variable {s s' : State} {i : Instr} (o : List Int)

/-! ## Other earlier events -/

/-- `s` with other earlier output events. -/
def State.withOut (s : State) (o : List Int) : State := { s with out := o }

@[simp] theorem State.withOut_pc : (s.withOut o).pc = s.pc := rfl
@[simp] theorem State.withOut_sp : (s.withOut o).sp = s.sp := rfl
@[simp] theorem State.withOut_status : (s.withOut o).status = s.status := rfl
@[simp] theorem State.readReg_withOut (r : RegIdx) : (s.withOut o).readReg r = s.readReg r := rfl
@[simp] theorem State.readMem_withOut (a : Nat) : (s.withOut o).readMem a = s.readMem a := rfl
@[simp] theorem State.fetchWord_withOut : (s.withOut o).fetchWord = s.fetchWord := rfl

/-! The updates that leave `out` alone commute with a change of the earlier events. -/

@[simp] theorem State.writeMem_withOut (a : Nat) (v : Word) :
    (s.withOut o).writeMem a v = (s.writeMem a v).withOut o := rfl
@[simp] theorem State.setSp_withOut (n : Nat) : (s.withOut o).setSp n = (s.setSp n).withOut o := rfl
@[simp] theorem State.jumpTo_withOut (n : Int) : (s.withOut o).jumpTo n = (s.jumpTo n).withOut o := rfl
@[simp] theorem State.raise_withOut (c : FaultCause) : (s.withOut o).raise c = (s.raise c).withOut o := rfl

/-! The operations that branch take the same branch after other earlier events, and so agree but for `out`. -/

theorem State.push_withOut (v : Word) : (s.withOut o).push v = (s.push v).map (·.withOut o) := by
  by_cases h : s.sp.val < 65536 <;> simp [State.push, h]

theorem State.pop_withOut : (s.withOut o).pop = s.pop.map fun r => (r.1, r.2.withOut o) := by
  by_cases h : s.sp.val = 0 <;> simp [State.pop, h]

theorem callTo_withOut (t : RegIdx) : callTo t (s.withOut o) = (callTo t s).withOut o := by
  simp only [callTo, State.push_withOut, State.withOut_pc]
  cases s.push (returnWord s.pc) <;> rfl

theorem execJ_withOut {t : RegIdx} {f : Cond} {a b : RegIdx} (h : execJ t f a b s = .next s') :
    execJ t f a b (s.withOut o) = .next (s'.withOut o) := by
  cases h
  by_cases ht : taken f (s.readReg a) (s.readReg b) <;> simp [execJ, ht]

theorem execJal_withOut {t : RegIdx} {f : Cond} {a b : RegIdx} (h : execJal t f a b s = .next s') :
    execJal t f a b (s.withOut o) = .next (s'.withOut o) := by
  cases h
  by_cases ht : taken f (s.readReg a) (s.readReg b) <;> simp [execJal, ht, callTo_withOut]

theorem execRet_withOut (h : execRet s = .next s') : execRet (s.withOut o) = .next (s'.withOut o) := by
  cases h
  simp only [execRet, State.pop_withOut]
  cases s.pop <;> rfl

theorem shiftWith_withOut {f : Word → Nat → Word} {t a b : RegIdx} (h : shiftWith f t a b s = .next s') :
    shiftWith f t a b (s.withOut o) = .next (s'.withOut o) := by
  cases h
  simp only [shiftWith, State.readReg_withOut]
  cases shiftDistance (s.readReg b) <;> rfl

/-! ## The events of one step -/

/-- The output events the execution of an instruction appends. -/
def eventsOf : Instr → State → List Int
  | .outPort t _, s => [s16 (s.readReg t)]
  | _, _ => []

@[simp] theorem eventsOf_outPort (t : RegIdx) (p : Port) : eventsOf (.outPort t p) s = [s16 (s.readReg t)] := rfl

theorem eventsOf_eq_nil (h : ¬ ∃ t p, i = .outPort t p) : eventsOf i s = [] := by
  cases i with
  | outPort t p => exact absurd ⟨t, p, rfl⟩ h
  | _ => rfl

/-- Executing an instruction after other earlier events goes the same way and appends the same events. -/
theorem exec_withOut (h : exec i s = .next s') :
    exec i (s.withOut o) = .next (s'.withOut (o ++ eventsOf i s)) := by
  by_cases hi : ∃ t p, i = .outPort t p
  · obtain ⟨t, p, rfl⟩ := hi
    cases h; rfl
  rw [eventsOf_eq_nil hi, List.append_nil]
  cases i with
  | j t f a b => exact execJ_withOut o h
  | jal t f a b => exact execJal_withOut o h
  | ret => exact execRet_withOut o h
  | sftLeft t a b => exact shiftWith_withOut o h
  | sftLogicalRight t a b => exact shiftWith_withOut o h
  | sftArithRight t a b => exact shiftWith_withOut o h
  | outPort t p => exact absurd ⟨t, p, rfl⟩ hi
  | _ => cases h; rfl

/-- The output events a running state's next step appends: those of the instruction it is about to run, none when the
fetch or the decoding faults. -/
def State.stepEvents (s : State) : List Int :=
  match s.fetchWord.map decode with
  | some (.ok i) => eventsOf i s
  | _ => []

theorem State.stepEvents_of_aboutToRun (h : s.AboutToRun i) : s.stepEvents = eventsOf i s := by
  obtain ⟨-, w, hw, hd⟩ := h
  simp [State.stepEvents, hw, hd]

/-- Only a step of `OUT` appends events. -/
theorem State.stepEvents_eq_nil (hs : s.status = .running) (h : ¬ ∃ t p, s.AboutToRun (.outPort t p)) :
    s.stepEvents = [] := by
  unfold State.stepEvents
  split
  next i hi =>
    obtain ⟨w, hw, hd⟩ := Option.map_eq_some_iff.mp hi
    refine eventsOf_eq_nil fun ⟨t, p, ho⟩ => h ⟨t, p, hs, w, hw, ?_⟩
    rw [hd, ho]
  next => rfl

/-- A step after other earlier events goes the same way and appends the same events. -/
theorem step_withOut (h : step s = .next s') :
    step (s.withOut o) = .next (s'.withOut (o ++ s.stepEvents)) := by
  obtain ⟨hs, ⟨hw, rfl⟩ | ⟨w, hw, hd, rfl⟩ | ⟨w, i, hw, hd, hx⟩⟩ := step_cases h
  all_goals rw [step_running (by simpa using hs)]
  · simp [State.stepEvents, hw]
  · simp [State.stepEvents, runWord, hw, hd]
  · rw [State.stepEvents_of_aboutToRun ⟨hs, w, hw, hd⟩]
    simp [runWord, hw, hd, exec_withOut o hx]

/-- What a step leaves in `out`: the earlier events, then its own. -/
theorem step_out (h : step s = .next s') : s'.out = s.out ++ s.stepEvents := by
  have own : step s = .next (s'.withOut (s.out ++ s.stepEvents)) := step_withOut s.out h
  exact congrArg State.out (Host.Outcome.next.inj (h.symm.trans own))

/-- Settles O23: a step commutes with a change of the earlier events, so its own events depend on the instruction
alone. -/
theorem outputGrowsExactlyAtOut : Obligations.OutputGrowsExactlyAtOut := by
  refine ⟨fun _ => rfl, fun s s' h => ⟨fun t p hi => ?_, fun hi => ?_, fun o => ?_⟩⟩
  · rw [step_out h, State.stepEvents_of_aboutToRun hi, eventsOf_outPort]
  · obtain ⟨hs, -⟩ := step_cases h
    rw [step_out h, State.stepEvents_eq_nil hs hi, List.append_nil]
  · rw [step_out h, List.drop_left]
    exact step_withOut o h

end Sys2Proof.Machine
end

section
/-! SUPPORT. The instruction store, which no instruction, step or run changes (20_memory.md R39). -/

namespace Sys2Proof.Machine

variable {s s' : State} {i : Instr} {n : Nat}

/-- No instruction writes the instruction store, and no fault it raises does. -/
theorem exec_keeps_store (h : exec i s = .next s') : s'.store = s.store ∧ s'.storeSize = s.storeSize := by
  rcases exec_cases h with ⟨t, v, -, rfl⟩ | ⟨a, b, -, rfl⟩ | ⟨-, rfl⟩ | ⟨t, f, a, b, -, rfl⟩ |
    ⟨t, f, a, b, -, ⟨-, rfl⟩ | ⟨-, -, rfl⟩ | ⟨-, -, rfl⟩⟩ | ⟨a, -, rfl⟩ | ⟨-, ⟨-, rfl⟩ | ⟨-, rfl⟩⟩ |
    ⟨b, -, -, rfl⟩ | ⟨t, a, b, -, rfl⟩ | ⟨t, p, -, rfl⟩ | ⟨-, rfl⟩
  -- `J` jumps or advances
  case inr.inr.inr.inl => split <;> exact ⟨rfl, rfl⟩
  all_goals exact ⟨rfl, rfl⟩

theorem step_keeps_store (h : step s = .next s') : s'.store = s.store ∧ s'.storeSize = s.storeSize := by
  obtain ⟨-, ⟨-, rfl⟩ | ⟨w, -, -, rfl⟩ | ⟨w, i, -, -, hx⟩⟩ := step_cases h
  · exact ⟨rfl, rfl⟩
  · exact ⟨rfl, rfl⟩
  · exact exec_keeps_store hx

/-- What every step keeps, every run keeps. -/
theorem run_keeps {α : Type} {f : State → α} (keeps : ∀ {s s'}, step s = .next s' → f s' = f s)
    (h : Host.Core.run Sys2Proof.core n s = .next s') : f s' = f s := by
  induction n generalizing s with
  | zero => cases h; rfl
  | succ n ih =>
    obtain ⟨s1, hstep, hrun⟩ := run_succ_cases h
    exact (ih hrun).trans (keeps hstep)

/-- Settles O22: no step writes the store or its size, so by induction on its length no run does. -/
theorem runsNeverChangeTheInstructionStore : Obligations.RunsNeverChangeTheInstructionStore := by
  intro n s s' h
  have store : s'.store = s.store := run_keeps (fun hs => (step_keeps_store hs).left) h
  have size : s'.storeSize = s.storeSize := run_keeps (fun hs => (step_keeps_store hs).right) h
  exact ⟨fun k => by simp only [State.readStore, store], size⟩

end Sys2Proof.Machine
end

section
/-! SUPPORT. The fields the decoder reads, by arithmetic on the word, and the decoding of the opcodes with an immediate or
a port (30_encoding.md R53, R54, R58). -/

namespace Sys2Proof.Machine

variable {w : Word}

/-! ## Fields -/

theorem toNat_opcodeField (w : Word) : (opcodeField w).toNat = w.toNat / 4096 := by
  have hw := w.isLt
  rw [opcodeField, BitVec.extractLsb'_toNat, Nat.shiftRight_eq_div_pow]
  omega

theorem val_field3 (w : Word) (lo : Nat) : (field3 w lo).val = w.toNat / 2 ^ lo % 8 := by
  rw [field3, BitVec.val_toFin, BitVec.extractLsb'_toNat, Nat.shiftRight_eq_div_pow]

theorem imm8Field_eq_lowByteSigned (w : Word) : imm8Field w = lowByteSigned w := by
  rw [imm8Field, BitVec.toInt_eq_toNat_cond, BitVec.extractLsb'_toNat, lowByteSigned]
  split <;> split <;> omega

theorem lowByteSigned_range (w : Word) : -128 ≤ lowByteSigned w ∧ lowByteSigned w ≤ 127 := by
  unfold lowByteSigned
  split <;> omega

/-- Sign extension to 16 bits keeps the value of an immediate in the range of R54. -/
theorem toInt_immWord {imm : Int} (low : -128 ≤ imm) (high : imm ≤ 127) : (immWord imm).toInt = imm :=
  toInt_wrap16 (by omega) (by omega)

/-! ## Opcodes with an immediate or a port -/

theorem decode_opcode_addi (h : w.toNat / 4096 = 4) : decode w = .ok (.addi (field3 w 9) (imm8Field w)) := by
  simp only [decode, toNat_opcodeField, h]

theorem decode_opcode_set (h : w.toNat / 4096 = 11) : decode w = .ok (.set (field3 w 9) (imm8Field w)) := by
  simp only [decode, toNat_opcodeField, h]

/-- Opcode 14 is `OUT` or `IN` by the write bit. -/
theorem decode_opcode_port (h : w.toNat / 4096 = 14) :
    decode w = .ok (if writeBit w then .outPort (field3 w 9) (field3 w 6) else .inPort (field3 w 9) (field3 w 6)) := by
  simp only [decode, toNat_opcodeField, h]
  split <;> rfl

/-- Settles O6: the decoder's `imm8` is the low byte by the formula of R8, which fits 16 bits unwrapped, and its port is
the 3-bit field at bit 6. -/
theorem immediateIsTheSignedLowByte : Obligations.ImmediateIsTheSignedLowByte := by
  refine ⟨fun w => ?_, fun _ => toInt_immWord, fun w h => ⟨field3 w 9, field3 w 6, val_field3 w 6, ?_⟩⟩
  · obtain ⟨low, high⟩ := lowByteSigned_range w
    rw [← imm8Field_eq_lowByteSigned] at low high ⊢
    exact ⟨low, high, decode_opcode_addi, decode_opcode_set⟩
  · rw [decode_opcode_port h]
    cases writeBit w with
    | false => exact .inl rfl
    | true => exact .inr rfl

end Sys2Proof.Machine
end

section
/-! SUPPORT. The number an encoded word is, field by field (30_encoding.md R61). -/

namespace Sys2Proof.Machine

variable {p : Word}

/-! ## A 3-bit field -/

theorem toNat_place {lo : Nat} (v : Fin 8) (hlo : lo ≤ 13) : (place v lo).toNat = 2 ^ lo * v.val := by
  have fits : 2 ^ lo * v.val < 2 ^ 16 :=
    calc 2 ^ lo * v.val < 2 ^ lo * 2 ^ 3 := Nat.mul_lt_mul_of_pos_left v.isLt (by positivity)
      _ = 2 ^ (lo + 3) := (pow_add 2 lo 3).symm
      _ ≤ 2 ^ 16 := Nat.pow_le_pow_right (by omega) (by omega)
  rw [place, BitVec.toNat_shiftLeft, BitVec.toNat_ofNat, Nat.mod_eq_of_lt (show v.val < 2 ^ 16 by omega),
    Nat.shiftLeft_eq, Nat.mul_comm, Nat.mod_eq_of_lt fits]

/-- A 3-bit field placed where the word holds 0 shares no bit with it. -/
theorem and_place_eq_zero {lo : Nat} (v : Fin 8) (free : p.toNat / 2 ^ lo % 8 = 0) : p &&& place v lo = 0 := by
  refine BitVec.eq_of_getLsbD_eq fun k _ => ?_
  rw [BitVec.getLsbD_and, place, BitVec.getLsbD_shiftLeft, BitVec.getLsbD_ofNat]
  by_cases below : k < lo
  · simp [below]
  by_cases inside : k - lo < 3
  · have bit : (p.toNat / 2 ^ lo % 2 ^ 3).testBit (k - lo) = false := by
      rw [show p.toNat / 2 ^ lo % 2 ^ 3 = 0 from free, Nat.zero_testBit]
    rw [Nat.testBit_mod_two_pow, Nat.testBit_div_two_pow, Nat.sub_add_cancel (Nat.le_of_not_lt below)] at bit
    have unset : p.getLsbD k = false := by simpa [BitVec.getLsbD, inside] using bit
    simp [unset]
  · have unset : v.val.testBit (k - lo) = false :=
      Nat.testBit_lt_two_pow (v.isLt.trans_le (Nat.pow_le_pow_right (n := 2) (by omega) (Nat.le_of_not_lt inside)))
    simp [unset]

/-- Placing a 3-bit field where the word holds 0 adds the field's value there. -/
theorem toNat_or_place {lo : Nat} (v : Fin 8) (hlo : lo ≤ 13) (free : p.toNat / 2 ^ lo % 8 = 0) :
    (p ||| place v lo).toNat = p.toNat + 2 ^ lo * v.val := by
  have disjoint := and_place_eq_zero v free
  rw [← BitVec.add_eq_or_of_and_eq_zero _ _ disjoint, BitVec.toNat_add_of_and_eq_zero disjoint, toNat_place v hlo]

/-- The word of an instruction with all three register fields. -/
theorem toNat_or_registers (t a b : RegIdx) (free : p.toNat / 8 % 512 = 0) :
    (p ||| place t 9 ||| place a 6 ||| place b 3).toNat = p.toNat + 512 * t.val + 64 * a.val + 8 * b.val := by
  have ht := toNat_or_place (p := p) (lo := 9) t (by omega) (by omega)
  have ha := toNat_or_place (p := p ||| place t 9) (lo := 6) a (by omega) (by omega)
  have hb := toNat_or_place (p := p ||| place t 9 ||| place a 6) (lo := 3) b (by omega) (by omega)
  omega

/-! ## The immediate -/

theorem toNat_placeImm8 (imm : Int) : ((placeImm8 imm).toNat : Int) = imm % 256 := by
  rw [placeImm8, BitVec.toNat_setWidth, BitVec.toNat_ofInt]
  omega

/-- Placing an immediate in an empty low byte adds its residue modulo 256. -/
theorem toNat_or_placeImm8 (imm : Int) (free : p.toNat % 256 = 0) :
    ((p ||| placeImm8 imm).toNat : Int) = p.toNat + imm % 256 := by
  have himm := toNat_placeImm8 imm
  have low : (placeImm8 imm).toNat < 2 ^ 8 := by omega
  have high : p.toNat = 2 ^ 8 * (p.toNat / 256) := by omega
  rw [BitVec.toNat_or, high, ← Nat.two_pow_add_eq_or_of_lt low, ← high, Nat.cast_add, himm]

/-- The word of an instruction with a destination and an immediate. -/
theorem toNat_or_register_imm (t : RegIdx) (imm : Int) (free : p.toNat % 4096 = 0) :
    ((p ||| place t 9 ||| placeImm8 imm).toNat : Int) = p.toNat + 512 * t.val + imm % 256 := by
  have ht := toNat_or_place (p := p) (lo := 9) t (by omega) (by omega)
  have himm := toNat_or_placeImm8 (p := p ||| place t 9) imm (by omega)
  omega

end Sys2Proof.Machine
end

section
/-! SUPPORT. Arithmetic and logic (41_arith_logic.md): the encoding and the whole effect of ADD, AND, XOR and SET. -/

namespace Sys2Proof.Machine

variable {w : Word}

theorem decode_opcode_add (h : w.toNat / 4096 = 3) : decode w = .ok (.add (field3 w 9) (field3 w 6) (field3 w 3)) := by
  simp only [decode, toNat_opcodeField, h]

theorem decode_opcode_and (h : w.toNat / 4096 = 6) : decode w = .ok (.and (field3 w 9) (field3 w 6) (field3 w 3)) := by
  simp only [decode, toNat_opcodeField, h]

theorem decode_opcode_xor (h : w.toNat / 4096 = 7) : decode w = .ok (.xor (field3 w 9) (field3 w 6) (field3 w 3)) := by
  simp only [decode, toNat_opcodeField, h]

/-- The frame of an instruction that writes one register and advances. -/
theorem State.changesOnly_writeReg_advance (s : State) (t : RegIdx) (v : Word) :
    s.ChangesOnly (s.writeReg t v).advance [.reg t, .pc] := by
  intro part outside
  cases part with
  | reg r => exact s.readReg_writeReg_other t r v fun h => outside (by simp [h])
  | pc => simp at outside
  | istore => exact ⟨fun _ => rfl, rfl⟩
  | _ => rfl

/-- The whole effect of the family's instructions (R110). -/
theorem aluResult_effect (t : RegIdx) (v : Word) (s : State) : ∃ s', aluResult t v s = .next s' ∧
    s'.readReg t = v ∧ s'.pc = s.pc + 1 ∧ s.ChangesOnly s' [.reg t, .pc] :=
  ⟨_, rfl, s.readReg_writeReg_same t v, rfl, s.changesOnly_writeReg_advance t v⟩

theorem toNat_addWords (p q : Word) : (addWords p q).toNat = (p.toNat + q.toNat) % 65536 := by
  exact_mod_cast toNat_wrap16 (p.toNat + q.toNat)

/-- Settles O35: the sum of the unsigned readings is exact before it is wrapped. -/
theorem addWrapsTheSum : Obligations.AddWrapsTheSum := by
  refine ⟨fun _ => decode_opcode_add, fun t a b => toNat_or_registers t a b (by decide), fun t a b s => ?_⟩
  obtain ⟨s', run, value, frame⟩ := aluResult_effect t (addWords (s.readReg a) (s.readReg b)) s
  exact ⟨s', run, by rw [value]; exact toNat_addWords _ _, frame⟩

/-- Settles O38: each bit of a word's conjunction is the conjunction of the bits. -/
theorem andActsBitByBit : Obligations.AndActsBitByBit := by
  refine ⟨fun _ => decode_opcode_and, fun t a b => toNat_or_registers t a b (by decide), fun t a b s => ?_⟩
  obtain ⟨s', run, value, frame⟩ := aluResult_effect t (andWords (s.readReg a) (s.readReg b)) s
  exact ⟨s', run, fun _ _ => by rw [value]; exact BitVec.getLsbD_and, frame⟩

/-- Settles O39: each bit of a word's exclusive or is the exclusive or of the bits. -/
theorem xorActsBitByBit : Obligations.XorActsBitByBit := by
  refine ⟨fun _ => decode_opcode_xor, fun t a b => toNat_or_registers t a b (by decide), fun t a b s => ?_⟩
  obtain ⟨s', run, value, frame⟩ := aluResult_effect t (xorWords (s.readReg a) (s.readReg b)) s
  exact ⟨s', run, fun _ _ => by rw [value]; exact BitVec.getLsbD_xor, frame⟩

/-- Settles O40: what the whole register holds is the immediate extended to 16 bits, which keeps its value. -/
theorem setWritesTheSignExtendedImmediate : Obligations.SetWritesTheSignExtendedImmediate := by
  refine ⟨fun w h => ?_, fun t imm => toNat_or_register_imm t imm (by decide), fun t imm s => ?_⟩
  · rw [decode_opcode_set h, imm8Field_eq_lowByteSigned]
  · obtain ⟨s', run, value, frame⟩ := aluResult_effect t (immWord imm) s
    exact ⟨s', run, fun low high => by rw [value]; exact toInt_immWord low high, frame⟩

end Sys2Proof.Machine
end

section
/-! SUPPORT. Input and output (44_io.md): the encoding and the whole effect of IN and OUT. -/

namespace Sys2Proof.Machine

variable {w : Word}

/-! ## Encoding -/

theorem opcodeField_and (p q : Word) : opcodeField (p &&& q) = opcodeField p &&& opcodeField q :=
  BitVec.extractLsb'_and

theorem writeBit_and (p q : Word) : writeBit (p &&& q) = (writeBit p && writeBit q) :=
  BitVec.getLsbD_and

/-- The mask of the rows `IN` and `OUT` (30_encoding.md R56) keeps the opcode and the write bit, which are all that
decoding a word of opcode 14 depends on. -/
theorem decode_port_row {row : Word} (h : w &&& 0xF020 = row) (opcode : opcodeField row = 14) :
    decode w =
      .ok (if writeBit row then .outPort (field3 w 9) (field3 w 6) else .inPort (field3 w 9) (field3 w 6)) := by
  have hop : opcodeField row = opcodeField w := by
    rw [← h, opcodeField_and, show opcodeField 0xF020 = BitVec.allOnes 4 from rfl, BitVec.and_allOnes]
  have hbit : writeBit row = writeBit w := by
    rw [← h, writeBit_and, show writeBit 0xF020 = true from rfl, Bool.and_true]
  rw [hbit]
  exact decode_opcode_port (by rw [← toNat_opcodeField, ← hop, opcode]; rfl)

/-- The word of an instruction with a register and a port. -/
theorem toNat_or_register_port {base : Word} (t : RegIdx) (p : Port) (free : base.toNat / 64 % 64 = 0) :
    (base ||| place t 9 ||| place p 6).toNat = base.toNat + 512 * t.val + 64 * p.val := by
  have ht := toNat_or_place (p := base) (lo := 9) t (by omega) (by omega)
  have hp := toNat_or_place (p := base ||| place t 9) (lo := 6) p (by omega) (by omega)
  omega

/-! ## Effect -/

/-- The frame of an instruction that writes one port, emits one event and advances. -/
theorem State.changesOnly_writePort_emit_advance (s : State) (p : Port) (v u : Word) :
    s.ChangesOnly ((s.writePort p v).emit u).advance [.port p, .out, .pc] := by
  intro part outside
  cases part with
  | port q => exact s.readPort_writePort_other p q v fun h => outside (by simp [h])
  | pc => simp at outside
  | out => simp at outside
  | istore => exact ⟨fun _ => rfl, rfl⟩
  | _ => rfl

/-- Settles O54: `IN` is a register write followed by `pc + 1`. -/
theorem inCopiesThePortIntoTheRegister : Obligations.InCopiesThePortIntoTheRegister := by
  refine ⟨fun w h => decode_port_row h rfl, fun t p => toNat_or_register_port t p (by decide), fun t p s => ?_⟩
  exact ⟨(s.writeReg t (s.readPort p)).advance, rfl, s.readReg_writeReg_same t _, rfl,
    s.changesOnly_writeReg_advance t _⟩

/-- Settles O55: the port and the one event both take the value of `rT` before the step. -/
theorem outWritesThePortAndEmits : Obligations.OutWritesThePortAndEmits := by
  refine ⟨fun w h => decode_port_row h rfl, fun t p => toNat_or_register_port t p (by decide), fun t p s => ?_⟩
  exact ⟨((s.writePort p (s.readReg t)).emit (s.readReg t)).advance, rfl, s.readPort_writePort_same p _, rfl, rfl,
    s.changesOnly_writePort_emit_advance p _ _⟩

end Sys2Proof.Machine
end

section
/-! SUPPORT. NOP (45_system.md): its encoding and its whole effect. -/

namespace Sys2Proof.Machine

variable {w : Word}

theorem decode_opcode_nop (h : w.toNat / 4096 = 0) : decode w = .ok .nop := by
  simp only [decode, toNat_opcodeField, h]

/-- The frame of an instruction that only advances. -/
theorem State.changesOnly_advance (s : State) : s.ChangesOnly s.advance [.pc] := by
  intro part outside
  cases part with
  | pc => simp at outside
  | istore => exact ⟨fun _ => rfl, rfl⟩
  | _ => rfl

/-- Settles O56: `NOP` is `advance` alone. -/
theorem nopOnlyAdvances : Obligations.NopOnlyAdvances :=
  ⟨fun _ => decode_opcode_nop, rfl, fun s => ⟨s.advance, rfl, rfl, s.changesOnly_advance⟩⟩

end Sys2Proof.Machine
end

section
/-! SUPPORT. The state a launch creates, and the one reset creates (70_reset_and_hazards.md R210). -/

namespace Sys2Proof.Machine

/-- A `pc` inside the store is one that fetches (00_scope.md R7). -/
theorem State.fetchWord_inside {s : State} (low : 0 ≤ s.pc) (high : s.pc < s.storeSize) :
    s.fetchWord = some (s.readStore s.pc.toNat) :=
  if_pos ⟨low, high⟩

/-- A launch with a store of any admitted size has a word to fetch at once: `pc` starts at index 0. -/
theorem State.fetchWord_launch {l : Launch} (nonempty : 1 ≤ l.storeSize) :
    (State.launch l).fetchWord = some ((State.launch l).readStore 0) :=
  State.fetchWord_inside (s := State.launch l) (Int.le_refl 0) (Int.natCast_pos.mpr nonempty)

/-- The parameters reset is made with are admitted (00_scope.md R4): the largest store, no program, no listed cell. -/
theorem Launch.atReset_admitted : Launch.atReset.Admitted :=
  ⟨by decide, Nat.le_refl _, Nat.zero_le _, Memory.nil_wf⟩

/-- Settles O10: each part of the launch state is what `State.launch` takes from R25 or from the parameters, and
`State.reset` is the launch at `Launch.atReset`. -/
theorem resetCreatesTheLaunchState : Obligations.ResetCreatesTheLaunchState := by
  refine ⟨fun l => ?_, Launch.atReset, Launch.atReset_admitted, rfl⟩
  exact ⟨rfl, rfl, rfl, rfl, fun _ => rfl, fun _ => rfl, fun _ => rfl, State.fetchWord_launch⟩

end Sys2Proof.Machine
end

section
/-! SUPPORT. The decoder as a relation: the fields of a word that make up each instruction (30_encoding.md R53, R58). -/

namespace Sys2Proof.Machine

variable {w v : Word} {i : Instr}

/-- `w` holds the opcode, the selector and the operands of the instruction, each in its field (R52, R53). -/
def ReadsAs (w : Word) : Instr → Prop
  | .nop => (opcodeField w).toNat = 0
  | .load t b => (opcodeField w).toNat = 1 ∧ field3 w 9 = t ∧ field3 w 3 = b
  | .store a b => (opcodeField w).toNat = 2 ∧ field3 w 6 = a ∧ field3 w 3 = b
  | .add t a b => (opcodeField w).toNat = 3 ∧ field3 w 9 = t ∧ field3 w 6 = a ∧ field3 w 3 = b
  | .addi t imm => (opcodeField w).toNat = 4 ∧ field3 w 9 = t ∧ imm8Field w = imm
  | .sub t a b => (opcodeField w).toNat = 5 ∧ field3 w 9 = t ∧ field3 w 6 = a ∧ field3 w 3 = b
  | .and t a b => (opcodeField w).toNat = 6 ∧ field3 w 9 = t ∧ field3 w 6 = a ∧ field3 w 3 = b
  | .xor t a b => (opcodeField w).toNat = 7 ∧ field3 w 9 = t ∧ field3 w 6 = a ∧ field3 w 3 = b
  | .j t f a b =>
    (opcodeField w).toNat = 8 ∧ condOfFlag (selField w) = f ∧ field3 w 9 = t ∧ field3 w 6 = a ∧ field3 w 3 = b
  | .jal t f a b =>
    (opcodeField w).toNat = 9 ∧ condOfFlag (selField w) = f ∧ field3 w 9 = t ∧ field3 w 6 = a ∧ field3 w 3 = b
  | .ssp a => (opcodeField w).toNat = 10 ∧ field3 w 6 = a
  | .set t imm => (opcodeField w).toNat = 11 ∧ field3 w 9 = t ∧ imm8Field w = imm
  | .ret => (opcodeField w).toNat = 12
  | .sftLeft t a b =>
    (opcodeField w).toNat = 13 ∧ selField w = 0 ∧ field3 w 9 = t ∧ field3 w 6 = a ∧ field3 w 3 = b
  | .sftLogicalRight t a b =>
    (opcodeField w).toNat = 13 ∧ selField w = 1 ∧ field3 w 9 = t ∧ field3 w 6 = a ∧ field3 w 3 = b
  | .sftArithRight t a b =>
    (opcodeField w).toNat = 13 ∧ selField w = 2 ∧ field3 w 9 = t ∧ field3 w 6 = a ∧ field3 w 3 = b
  | .sftInvalid t a b =>
    (opcodeField w).toNat = 13 ∧ selField w = 3 ∧ field3 w 9 = t ∧ field3 w 6 = a ∧ field3 w 3 = b
  | .inPort t p => (opcodeField w).toNat = 14 ∧ writeBit w = false ∧ field3 w 9 = t ∧ field3 w 6 = p
  | .outPort t p => (opcodeField w).toNat = 14 ∧ writeBit w = true ∧ field3 w 9 = t ∧ field3 w 6 = p
  | .halt => (opcodeField w).toNat = 15

/-- A word that holds an instruction's fields takes the decoder's arm for it: each field is one the arm reads. -/
theorem decode_of_readsAs (h : ReadsAs w i) : decode w = .ok i := by
  cases i <;> simp_all [ReadsAs, decode]

/-- Opcode 13 is assigned with every operator (log 10). -/
theorem exists_readsAs_shift (op : (opcodeField w).toNat = 13) : ∃ i, ReadsAs w i := by
  match sel : selField w with
  | 0 => exact ⟨.sftLeft _ _ _, op, sel, rfl, rfl, rfl⟩
  | 1 => exact ⟨.sftLogicalRight _ _ _, op, sel, rfl, rfl, rfl⟩
  | 2 => exact ⟨.sftArithRight _ _ _, op, sel, rfl, rfl, rfl⟩
  | 3 => exact ⟨.sftInvalid _ _ _, op, sel, rfl, rfl, rfl⟩

theorem exists_readsAs_port (op : (opcodeField w).toNat = 14) : ∃ i, ReadsAs w i := by
  cases bit : writeBit w with
  | false => exact ⟨.inPort _ _, op, bit, rfl, rfl⟩
  | true => exact ⟨.outPort _ _, op, bit, rfl, rfl⟩

/-- Every opcode is assigned, so every word reads as some instruction (60_exceptions.md R182). -/
theorem exists_readsAs (w : Word) : ∃ i, ReadsAs w i := by
  match op : (opcodeField w).toNat with
  | 0 => exact ⟨.nop, op⟩
  | 1 => exact ⟨.load _ _, op, rfl, rfl⟩
  | 2 => exact ⟨.store _ _, op, rfl, rfl⟩
  | 3 => exact ⟨.add _ _ _, op, rfl, rfl, rfl⟩
  | 4 => exact ⟨.addi _ _, op, rfl, rfl⟩
  | 5 => exact ⟨.sub _ _ _, op, rfl, rfl, rfl⟩
  | 6 => exact ⟨.and _ _ _, op, rfl, rfl, rfl⟩
  | 7 => exact ⟨.xor _ _ _, op, rfl, rfl, rfl⟩
  | 8 => exact ⟨.j _ _ _ _, op, rfl, rfl, rfl, rfl⟩
  | 9 => exact ⟨.jal _ _ _ _, op, rfl, rfl, rfl, rfl⟩
  | 10 => exact ⟨.ssp _, op, rfl⟩
  | 11 => exact ⟨.set _ _, op, rfl, rfl⟩
  | 12 => exact ⟨.ret, op⟩
  | 13 => exact exists_readsAs_shift op
  | 14 => exact exists_readsAs_port op
  | 15 => exact ⟨.halt, op⟩
  | _ + 16 => exact absurd (opcodeField w).isLt (by omega)

/-- The decoder answers exactly the instruction the word reads as (R58). -/
theorem decode_eq_ok_iff : decode w = .ok i ↔ ReadsAs w i := by
  refine ⟨fun h => ?_, decode_of_readsAs⟩
  obtain ⟨j, hj⟩ := exists_readsAs w
  rw [decode_of_readsAs hj] at h
  exact Except.ok.inj h ▸ hj

end Sys2Proof.Machine
end

section
/-! SUPPORT. The canonical word of every instruction as a number, and what its fields then hold
(30_encoding.md R53, R61). -/

namespace Sys2Proof.Machine

variable {w : Word} {i : Instr}

/-! ## The number of each word -/

/-- The word of an instruction with a destination and the register field at bit 3. -/
theorem toNat_or_target_b {base : Word} (t b : RegIdx) (free : base.toNat / 8 % 512 = 0) :
    (base ||| place t 9 ||| place b 3).toNat = base.toNat + 512 * t.val + 8 * b.val := by
  have ht := toNat_or_place (p := base) (lo := 9) t (by omega) (by omega)
  have hb := toNat_or_place (p := base ||| place t 9) (lo := 3) b (by omega) (by omega)
  omega

/-- The word of an instruction with the register fields at bits 6 and 3. -/
theorem toNat_or_a_b {base : Word} (a b : RegIdx) (free : base.toNat / 8 % 64 = 0) :
    (base ||| place a 6 ||| place b 3).toNat = base.toNat + 64 * a.val + 8 * b.val := by
  have ha := toNat_or_place (p := base) (lo := 6) a (by omega) (by omega)
  have hb := toNat_or_place (p := base ||| place a 6) (lo := 3) b (by omega) (by omega)
  omega

theorem Cond.flag_lt (f : Cond) : f.flag < 4 := by
  cases f <;> decide

theorem toNat_or_flag {base : Word} (f : Cond) (free : base.toNat / 2 % 8 = 0) :
    (base ||| place f.flag 1).toNat = base.toNat + 2 * f.flag :=
  toNat_or_place (lo := 1) ⟨f.flag, (Cond.flag_lt f).trans (by decide)⟩ (by decide) free

/-- In the word of a jump the flag can be placed before the registers. -/
theorem or_registers_flag (base : Word) (t : RegIdx) (f : Cond) (a b : RegIdx) :
    base ||| place t 9 ||| place a 6 ||| place b 3 ||| place f.flag 1 =
      base ||| place f.flag 1 ||| place t 9 ||| place a 6 ||| place b 3 := by
  ac_rfl

theorem toNat_or_registers_flag {base : Word} (t : RegIdx) (f : Cond) (a b : RegIdx) (free : base.toNat % 4096 = 0) :
    (base ||| place t 9 ||| place a 6 ||| place b 3 ||| place f.flag 1).toNat =
      base.toNat + 512 * t.val + 64 * a.val + 8 * b.val + 2 * f.flag := by
  have bound := Cond.flag_lt f
  have flag := toNat_or_flag (base := base) f (by omega)
  rw [or_registers_flag, toNat_or_registers t a b (by omega), flag]
  omega

/-- Settles O7: the fields of a format share no bit, so the bitwise or of R61 is their sum. -/
theorem encodeGivesTheCanonicalWord : Obligations.EncodeGivesTheCanonicalWord := by
  refine ⟨rfl, rfl, rfl, fun t b => toNat_or_target_b t b (by decide), fun a b => toNat_or_a_b a b (by decide),
    fun t a b => toNat_or_registers t a b (by decide), fun t imm => toNat_or_register_imm t imm (by decide),
    fun t a b => toNat_or_registers t a b (by decide), fun t a b => toNat_or_registers t a b (by decide),
    fun t a b => toNat_or_registers t a b (by decide), fun t f a b => ?j, fun t f a b => ?jal,
    fun a => toNat_or_place a (by omega) (by decide), fun t imm => toNat_or_register_imm t imm (by decide),
    fun t a b => toNat_or_registers t a b (by decide), fun t a b => toNat_or_registers t a b (by decide),
    fun t a b => toNat_or_registers t a b (by decide), fun t a b => toNat_or_registers t a b (by decide),
    fun t p => toNat_or_register_port t p (by decide), fun t p => toNat_or_register_port t p (by decide)⟩
  case j => exact (toNat_or_registers_flag t f a b (by decide)).trans (by cases f <;> rfl)
  case jal => exact (toNat_or_registers_flag t f a b (by decide)).trans (by cases f <;> rfl)

/-! ## The fields of a word, from its number -/

theorem toNat_selField (w : Word) : (selField w).toNat = w.toNat / 2 % 4 := by
  rw [selField, BitVec.extractLsb'_toNat, Nat.shiftRight_eq_div_pow]

theorem writeBit_iff : writeBit w = true ↔ w.toNat / 32 % 2 = 1 := by
  rw [writeBit, BitVec.getLsbD, Nat.testBit_eq_decide_div_mod_eq, decide_eq_true_iff]

/-- Registers added to a word that leaves their fields free can be read off the sum, next to the word's own opcode and
selector. -/
theorem fields_of_toNat {base : Word} {t a b : Fin 8} (free : base.toNat / 8 % 512 = 0)
    (h : w.toNat = base.toNat + 512 * t.val + 64 * a.val + 8 * b.val) :
    (opcodeField w).toNat = (opcodeField base).toNat ∧ selField w = selField base ∧
      field3 w 9 = t ∧ field3 w 6 = a ∧ field3 w 3 = b := by
  refine ⟨?_, BitVec.eq_of_toNat_eq ?_, Fin.ext ?_, Fin.ext ?_, Fin.ext ?_⟩
  · rw [toNat_opcodeField, toNat_opcodeField]; omega
  · rw [toNat_selField, toNat_selField]; omega
  all_goals rw [val_field3]; omega

theorem fields_of_toNat_imm {base : Word} {t : Fin 8} {imm : Int} (free : base.toNat % 4096 = 0)
    (range : immInRange imm = true) (h : (w.toNat : Int) = base.toNat + 512 * t.val + imm % 256) :
    (opcodeField w).toNat = (opcodeField base).toNat ∧ field3 w 9 = t ∧ imm8Field w = imm := by
  have bounds : -128 ≤ imm ∧ imm ≤ 127 := of_decide_eq_true range
  refine ⟨?_, Fin.ext ?_, ?_⟩
  · rw [toNat_opcodeField, toNat_opcodeField]; omega
  · rw [val_field3]; omega
  · rw [imm8Field_eq_lowByteSigned, lowByteSigned]
    split <;> omega

theorem fields_of_toNat_port {base : Word} {t p : Fin 8} (free : base.toNat / 64 % 64 = 0)
    (h : w.toNat = base.toNat + 512 * t.val + 64 * p.val) :
    (opcodeField w).toNat = (opcodeField base).toNat ∧ writeBit w = writeBit base ∧
      field3 w 9 = t ∧ field3 w 6 = p := by
  refine ⟨?_, Bool.eq_iff_iff.mpr ?_, Fin.ext ?_, Fin.ext ?_⟩
  · rw [toNat_opcodeField, toNat_opcodeField]; omega
  · rw [writeBit_iff, writeBit_iff]; omega
  all_goals rw [val_field3]; omega

theorem fields_or_registers {base : Word} (t a b : RegIdx) (free : base.toNat / 8 % 512 = 0)
    (h : base ||| place t 9 ||| place a 6 ||| place b 3 = w) :
    (opcodeField w).toNat = (opcodeField base).toNat ∧ selField w = selField base ∧
      field3 w 9 = t ∧ field3 w 6 = a ∧ field3 w 3 = b :=
  fields_of_toNat free (h ▸ toNat_or_registers t a b free)

theorem condOfFlag_flag (f : Cond) : condOfFlag (BitVec.ofNat 2 f.flag) = f := by
  cases f <;> rfl

theorem fields_or_registers_flag {base : Word} (t : RegIdx) (f : Cond) (a b : RegIdx) (free : base.toNat % 4096 = 0)
    (h : base ||| place t 9 ||| place a 6 ||| place b 3 ||| place f.flag 1 = w) :
    (opcodeField w).toNat = (opcodeField base).toNat ∧ condOfFlag (selField w) = f ∧
      field3 w 9 = t ∧ field3 w 6 = a ∧ field3 w 3 = b := by
  have bound := Cond.flag_lt f
  have flag := toNat_or_flag (base := base) f (by omega)
  obtain ⟨op, sel, regs⟩ := fields_or_registers t a b (by omega) ((or_registers_flag base t f a b).symm.trans h)
  have selFlag : selField w = BitVec.ofNat 2 f.flag := by
    rw [sel]
    exact BitVec.eq_of_toNat_eq (by rw [toNat_selField, BitVec.toNat_ofNat]; omega)
  refine ⟨?_, selFlag ▸ condOfFlag_flag f, regs⟩
  rw [op, toNat_opcodeField, toNat_opcodeField]
  omega

/-- The word of an instruction with operands in range reads as that instruction. -/
theorem readsAs_encode (h : i.wellFormed = true) : ReadsAs (encode i) i := by
  cases i with
  | nop => rfl
  | ret => rfl
  | halt => rfl
  | load t b =>
    obtain ⟨op, -, ht, -, hb⟩ :=
      fields_of_toNat (base := 0x1000) (a := 0) (by decide) (toNat_or_target_b t b (by decide))
    exact ⟨op, ht, hb⟩
  | store a b =>
    obtain ⟨op, -, -, ha, hb⟩ := fields_of_toNat (base := 0x2000) (t := 0) (by decide) (toNat_or_a_b a b (by decide))
    exact ⟨op, ha, hb⟩
  | ssp a =>
    obtain ⟨op, -, -, ha, -⟩ :=
      fields_of_toNat (base := 0xA000) (t := 0) (b := 0) (by decide)
        (toNat_or_place (lo := 6) a (by decide) (by decide))
    exact ⟨op, ha⟩
  | add t a b => exact (fields_or_registers (base := 0x3000) t a b (by decide) rfl).imp_right And.right
  | sub t a b => exact (fields_or_registers (base := 0x5000) t a b (by decide) rfl).imp_right And.right
  | and t a b => exact (fields_or_registers (base := 0x6000) t a b (by decide) rfl).imp_right And.right
  | xor t a b => exact (fields_or_registers (base := 0x7000) t a b (by decide) rfl).imp_right And.right
  | sftLeft t a b => exact fields_or_registers (base := 0xD000) t a b (by decide) rfl
  | sftLogicalRight t a b => exact fields_or_registers (base := 0xD002) t a b (by decide) rfl
  | sftArithRight t a b => exact fields_or_registers (base := 0xD004) t a b (by decide) rfl
  | sftInvalid t a b => exact fields_or_registers (base := 0xD006) t a b (by decide) rfl
  | j t f a b => exact fields_or_registers_flag (base := 0x8000) t f a b (by decide) rfl
  | jal t f a b => exact fields_or_registers_flag (base := 0x9000) t f a b (by decide) rfl
  | addi t imm => exact fields_of_toNat_imm (base := 0x4000) (by decide) h (toNat_or_register_imm t imm (by decide))
  | set t imm => exact fields_of_toNat_imm (base := 0xB000) (by decide) h (toNat_or_register_imm t imm (by decide))
  | inPort t p => exact fields_of_toNat_port (base := 0xE000) (by decide) (toNat_or_register_port t p (by decide))
  | outPort t p => exact fields_of_toNat_port (base := 0xE020) (by decide) (toNat_or_register_port t p (by decide))

/-- Settles O8: each field can be read off the number of the encoded word. -/
theorem decodeOfEncodeIsTheInstruction : Obligations.DecodeOfEncodeIsTheInstruction :=
  fun _ h => decode_of_readsAs (readsAs_encode h)

end Sys2Proof.Machine
end

section
/-! SUPPORT. The bits of a word that decoding looks at: encoding a decoded word keeps them and clears the others
(30_encoding.md R57, R61), and the rows of the opcode table are told apart by them (R56). -/

namespace Sys2Proof.Machine

variable {w v : Word} {i : Instr}

/-! ## One field as a masked word -/

/-- The bits of the field of `n` bits from bit `lo` on, kept by the field's mask and placed again. -/
theorem and_field (w : Word) (lo n : Nat) :
    w &&& ((BitVec.allOnes n).setWidth 16 <<< lo) = (w.extractLsb' lo n).setWidth 16 <<< lo := by
  refine BitVec.eq_of_getLsbD_eq fun k hk => ?_
  by_cases low : k < lo
  · simp [low]
  · have back : lo + (k - lo) = k := by omega
    simp [low, hk, back, Bool.and_comm]

theorem place_field3 (w : Word) (lo : Nat) : place (field3 w lo) lo = w &&& (7 <<< lo) := by
  rw [place, field3, BitVec.val_toFin, BitVec.ofNat_toNat, ← and_field]
  rfl

theorem place_opcodeField (w : Word) : place (opcodeField w).toNat 12 = w &&& 0xF000 := by
  rw [place, opcodeField, BitVec.ofNat_toNat, ← and_field]
  rfl

theorem place_selField (w : Word) : place (selField w).toNat 1 = w &&& 6 := by
  rw [place, selField, BitVec.ofNat_toNat, ← and_field]
  rfl

theorem placeImm8_imm8Field (w : Word) : placeImm8 (imm8Field w) = w &&& 0xFF := by
  rw [placeImm8, imm8Field, BitVec.ofInt_toInt, ← BitVec.shiftLeft_zero (BitVec.setWidth 16 _), ← and_field]
  rfl

theorem flag_condOfFlag (f : BitVec 2) : (condOfFlag f).flag = f.toNat := by
  revert f
  decide

theorem place_writeBit (w : Word) : place (writeBit w).toNat 5 = w &&& 0x20 := by
  have bit : (writeBit w).toNat = (w.extractLsb' 5 1).toNat := by
    have h := writeBit_iff (w := w)
    rw [BitVec.extractLsb'_toNat, Nat.shiftRight_eq_div_pow]
    cases hb : writeBit w with
    | false => simp only [hb, reduceCtorEq, false_iff] at h; rw [Bool.toNat_false]; omega
    | true => rw [Bool.toNat_true]; exact (h.mp hb).symm
  rw [place, bit, BitVec.ofNat_toNat, ← and_field]
  rfl

/-! ## Encoding a decoded word -/

theorem and_opcode (k : Nat) (op : (opcodeField w).toNat = k) : w &&& 0xF000 = place k 12 :=
  op ▸ (place_opcodeField w).symm

theorem and_opcode_sel {k : Nat} {f : BitVec 2} (op : (opcodeField w).toNat = k) (sel : selField w = f) :
    w &&& 0xF006 = place k 12 ||| place f.toNat 1 := by
  rw [← op, ← sel, place_opcodeField, place_selField, ← BitVec.and_or_distrib_left]
  rfl

theorem and_opcode_writeBit {k : Nat} {c : Bool} (op : (opcodeField w).toNat = k) (bit : writeBit w = c) :
    w &&& 0xF020 = place k 12 ||| place c.toNat 5 := by
  rw [← op, ← bit, place_opcodeField, place_writeBit, ← BitVec.and_or_distrib_left]
  rfl

/-- The opcode and selector kept by a mask, with the three registers of the word placed again. -/
theorem or_registers_of_word {base mask : Word} (h : w &&& mask = base) :
    base ||| place (field3 w 9) 9 ||| place (field3 w 6) 6 ||| place (field3 w 3) 3 = w &&& (mask ||| 0x0FF8) := by
  simp only [← h, place_field3, ← BitVec.and_or_distrib_left, BitVec.or_assoc]
  rfl

theorem or_registers_sel_of_word {base : Word} (h : w &&& 0xF006 = base) :
    base ||| place (field3 w 9) 9 ||| place (field3 w 6) 6 ||| place (field3 w 3) 3 = w &&& 0xFFFE :=
  or_registers_of_word h

theorem or_target_b_of_word {base : Word} (h : w &&& 0xF000 = base) :
    base ||| place (field3 w 9) 9 ||| place (field3 w 3) 3 = w &&& 0xFE38 := by
  simp only [← h, place_field3, ← BitVec.and_or_distrib_left]
  rfl

theorem or_a_b_of_word {base : Word} (h : w &&& 0xF000 = base) :
    base ||| place (field3 w 6) 6 ||| place (field3 w 3) 3 = w &&& 0xF1F8 := by
  simp only [← h, place_field3, ← BitVec.and_or_distrib_left]
  rfl

theorem or_a_of_word {base : Word} (h : w &&& 0xF000 = base) :
    base ||| place (field3 w 6) 6 = w &&& 0xF1C0 := by
  rw [← h, place_field3, ← BitVec.and_or_distrib_left]
  rfl

theorem or_register_imm_of_word {base : Word} (h : w &&& 0xF000 = base) :
    base ||| place (field3 w 9) 9 ||| placeImm8 (imm8Field w) = w &&& 0xFEFF := by
  simp only [← h, place_field3, placeImm8_imm8Field, ← BitVec.and_or_distrib_left]
  rfl

theorem or_register_port_of_word {base : Word} (h : w &&& 0xF020 = base) :
    base ||| place (field3 w 9) 9 ||| place (field3 w 6) 6 = w &&& 0xFFE0 := by
  simp only [← h, place_field3, ← BitVec.and_or_distrib_left]
  rfl

theorem or_registers_flag_of_word {base : Word} (h : w &&& 0xF000 = base) :
    base ||| place (field3 w 9) 9 ||| place (field3 w 6) 6 ||| place (field3 w 3) 3 |||
      place (condOfFlag (selField w)).flag 1 = w &&& 0xFFFE := by
  rw [or_registers_of_word h, flag_condOfFlag, place_selField, ← BitVec.and_or_distrib_left]
  rfl

/-- The instruction a word reads as has the word itself as its encoding, but for the bits in no field. -/
theorem encode_of_readsAs (h : ReadsAs w i) : encode i = w &&& fieldMask w := by
  unfold fieldMask
  cases i with
  | nop =>
    rw [h]
    exact (and_opcode 0 h).symm
  | ret =>
    rw [h]
    exact (and_opcode 12 h).symm
  | halt =>
    rw [h]
    exact (and_opcode 15 h).symm
  | load t b =>
    obtain ⟨op, rfl, rfl⟩ := h
    rw [op]
    exact or_target_b_of_word (and_opcode 1 op)
  | store a b =>
    obtain ⟨op, rfl, rfl⟩ := h
    rw [op]
    exact or_a_b_of_word (and_opcode 2 op)
  | ssp a =>
    obtain ⟨op, rfl⟩ := h
    rw [op]
    exact or_a_of_word (and_opcode 10 op)
  | add t a b =>
    obtain ⟨op, rfl, rfl, rfl⟩ := h
    rw [op]
    exact or_registers_of_word (and_opcode 3 op)
  | sub t a b =>
    obtain ⟨op, rfl, rfl, rfl⟩ := h
    rw [op]
    exact or_registers_of_word (and_opcode 5 op)
  | and t a b =>
    obtain ⟨op, rfl, rfl, rfl⟩ := h
    rw [op]
    exact or_registers_of_word (and_opcode 6 op)
  | xor t a b =>
    obtain ⟨op, rfl, rfl, rfl⟩ := h
    rw [op]
    exact or_registers_of_word (and_opcode 7 op)
  | j t f a b =>
    obtain ⟨op, rfl, rfl, rfl, rfl⟩ := h
    rw [op]
    exact or_registers_flag_of_word (and_opcode 8 op)
  | jal t f a b =>
    obtain ⟨op, rfl, rfl, rfl, rfl⟩ := h
    rw [op]
    exact or_registers_flag_of_word (and_opcode 9 op)
  | addi t imm =>
    obtain ⟨op, rfl, rfl⟩ := h
    rw [op]
    exact or_register_imm_of_word (and_opcode 4 op)
  | set t imm =>
    obtain ⟨op, rfl, rfl⟩ := h
    rw [op]
    exact or_register_imm_of_word (and_opcode 11 op)
  | sftLeft t a b =>
    obtain ⟨op, sel, rfl, rfl, rfl⟩ := h
    rw [op]
    exact or_registers_sel_of_word (and_opcode_sel op sel)
  | sftLogicalRight t a b =>
    obtain ⟨op, sel, rfl, rfl, rfl⟩ := h
    rw [op]
    exact or_registers_sel_of_word (and_opcode_sel op sel)
  | sftArithRight t a b =>
    obtain ⟨op, sel, rfl, rfl, rfl⟩ := h
    rw [op]
    exact or_registers_sel_of_word (and_opcode_sel op sel)
  | sftInvalid t a b =>
    obtain ⟨op, sel, rfl, rfl, rfl⟩ := h
    rw [op]
    exact or_registers_sel_of_word (and_opcode_sel op sel)
  | inPort t p =>
    obtain ⟨op, bit, rfl, rfl⟩ := h
    rw [op]
    exact or_register_port_of_word (and_opcode_writeBit op bit)
  | outPort t p =>
    obtain ⟨op, bit, rfl, rfl⟩ := h
    rw [op]
    exact or_register_port_of_word (and_opcode_writeBit op bit)

/-- Settles O9: each field placed again is the word under the field's mask. -/
theorem encodeOfDecodeClearsBitsInNoField : Obligations.EncodeOfDecodeClearsBitsInNoField :=
  fun _ _ h => encode_of_readsAs (decode_eq_ok_iff.mp h)

/-! ## What decoding depends on -/

theorem opcodeField_fieldMask (w : Word) : opcodeField (fieldMask w) = BitVec.allOnes 4 := by
  unfold fieldMask
  split <;> rfl

theorem fieldMask_congr (h : opcodeField v = opcodeField w) : fieldMask v = fieldMask w := by
  rw [fieldMask, h]
  rfl

/-- The immediate is the only operand of an instruction term that can be out of range, and a low byte never is. -/
theorem wellFormed_of_readsAs (h : ReadsAs w i) : i.wellFormed = true := by
  have range : immInRange (imm8Field w) = true := by
    rw [imm8Field_eq_lowByteSigned]
    exact decide_eq_true (lowByteSigned_range w)
  cases i with
  | addi t imm => obtain ⟨-, -, rfl⟩ := h; exact range
  | set t imm => obtain ⟨-, -, rfl⟩ := h; exact range
  | _ => rfl

/-- Settles O4: the two words have the same fields kept, so what they decode to has the same encoding. -/
theorem decodeIgnoresBitsInNoField : Obligations.DecodeIgnoresBitsInNoField := by
  intro w v agree
  have opcode : opcodeField v = opcodeField w := by
    simpa only [opcodeField_and, opcodeField_fieldMask, BitVec.and_allOnes] using congrArg opcodeField agree
  obtain ⟨i, hi⟩ := exists_readsAs w
  obtain ⟨j, hj⟩ := exists_readsAs v
  have same : encode j = encode i := by
    rw [encode_of_readsAs hj, encode_of_readsAs hi, fieldMask_congr opcode, agree]
  have hij : ReadsAs (encode i) j := same ▸ readsAs_encode (wellFormed_of_readsAs hj)
  rw [decode_of_readsAs hj, decode_of_readsAs hi, ← decode_of_readsAs hij,
    decode_of_readsAs (readsAs_encode (wellFormed_of_readsAs hi))]

/-- Bit 0 is in a field only where the format has an immediate (log 35). -/
theorem fieldMask_bit_zero (addi : w.toNat / 4096 ≠ 4) (set : w.toNat / 4096 ≠ 11) :
    (fieldMask w).getLsbD 0 = false := by
  rw [← toNat_opcodeField] at addi set
  unfold fieldMask
  split <;> simp_all

theorem xor_one_and {mask : Word} (h : mask.getLsbD 0 = false) : (w ^^^ 1) &&& mask = w &&& mask := by
  refine BitVec.eq_of_getLsbD_eq fun k _ => ?_
  cases k with
  | zero => rw [BitVec.getLsbD_and, BitVec.getLsbD_and, h, Bool.and_false, Bool.and_false]
  | succ k => simp

/-- Settles O5: each field is the quotient and remainder by the powers of 2 at its ends; bit 0 lies in none of them but
the immediate. -/
theorem fieldsStandAtTheirBits : Obligations.FieldsStandAtTheirBits :=
  fun w => ⟨toNat_opcodeField w, val_field3 w 9, val_field3 w 6, val_field3 w 3, toNat_selField w, writeBit_iff,
    imm8Field_eq_lowByteSigned w, fun addi set =>
      decodeIgnoresBitsInNoField w (w ^^^ 1) (xor_one_and (fieldMask_bit_zero addi set))⟩

/-- Settles O1: each of the words is closed, so the decoder computes its instruction. -/
theorem decodeOfWrittenWords : Obligations.DecodeOfWrittenWords :=
  ⟨rfl, rfl, rfl, rfl, rfl, rfl, rfl, rfl, rfl, rfl, rfl, rfl, rfl, rfl, rfl, rfl, rfl⟩

/-! ## The rows of the opcode table -/

/-- The word of every instruction belongs to the instruction's own row. -/
theorem encodesItsRow (i : Instr) : Laws.EncodesItsRow.Statement i :=
  match i with
  | .nop => Laws.EncodesItsRow.nop
  | .load t b => Laws.EncodesItsRow.load t b
  | .store a b => Laws.EncodesItsRow.store a b
  | .add t a b => Laws.EncodesItsRow.add t a b
  | .addi t imm => Laws.EncodesItsRow.addi t imm
  | .sub t a b => Laws.EncodesItsRow.sub t a b
  | .and t a b => Laws.EncodesItsRow.and t a b
  | .xor t a b => Laws.EncodesItsRow.xor t a b
  | .j t f a b => Laws.EncodesItsRow.j t f a b
  | .jal t f a b => Laws.EncodesItsRow.jal t f a b
  | .ssp a => Laws.EncodesItsRow.ssp a
  | .set t imm => Laws.EncodesItsRow.set t imm
  | .ret => Laws.EncodesItsRow.ret
  | .sftLeft t a b => Laws.EncodesItsRow.sftLeft t a b
  | .sftLogicalRight t a b => Laws.EncodesItsRow.sftLogicalRight t a b
  | .sftArithRight t a b => Laws.EncodesItsRow.sftArithRight t a b
  | .sftInvalid t a b => Laws.EncodesItsRow.sftInvalid t a b
  | .inPort t p => Laws.EncodesItsRow.inPort t p
  | .outPort t p => Laws.EncodesItsRow.outPort t p
  | .halt => Laws.EncodesItsRow.halt

/-- A row looks only at bits in some field of its words' format, the opcode among them. -/
theorem opcodeRow_mask {row : OpcodeRow} (h : row ∈ opcodeRows) :
    fieldMask row.value &&& row.mask = row.mask ∧ opcodeField row.mask = BitVec.allOnes 4 := by
  revert row
  decide

/-- No word belongs to two rows: on the bits both look at, two rows differ. -/
theorem opcodeRows_disjoint : ∀ row ∈ opcodeRows, ∀ row' ∈ opcodeRows,
    row.value &&& row'.mask = row'.value &&& row.mask → row = row' := by
  decide

theorem opcodeRows_mnemonic : ∀ row ∈ opcodeRows, ∀ row' ∈ opcodeRows,
    row.mnemonic = row'.mnemonic → row = row' := by
  decide

theorem row_of_readsAs (h : ReadsAs w i) :
    ∃ row ∈ opcodeRows, row.mnemonic = i.mnemonic ∧ w &&& row.mask = row.value := by
  obtain ⟨row, hrow, name, value⟩ := encodesItsRow i
  obtain ⟨mask, full⟩ := opcodeRow_mask hrow
  rw [encode_of_readsAs h, BitVec.and_assoc] at value
  have opcode : opcodeField w = opcodeField row.value := by
    simp only [← value, opcodeField_and, opcodeField_fieldMask, full, BitVec.and_allOnes]
  refine ⟨row, hrow, name, ?_⟩
  rw [← value, fieldMask_congr opcode, mask]

/-- Settles O3: a word belongs to the row of the instruction it reads as, and to no other. -/
theorem everyWordBelongsToTheRowItDecodesTo : Obligations.EveryWordBelongsToTheRowItDecodesTo := by
  refine ⟨by decide, by decide, fun w => ?_⟩
  obtain ⟨i, hi⟩ := exists_readsAs w
  obtain ⟨own, hown, name, value⟩ := row_of_readsAs hi
  refine ⟨i, decode_of_readsAs hi, ⟨own, hown, name⟩, fun row hrow => ⟨fun belongs => ?_, fun same => ?_⟩⟩
  · have overlap : row.value &&& own.mask = own.value &&& row.mask := by
      rw [← belongs, ← value]
      ac_rfl
    rw [opcodeRows_disjoint row hrow own hown overlap, name]
  · rw [opcodeRows_mnemonic row hrow own hown (same.trans name.symm), value]

end Sys2Proof.Machine
end

section
/-! SUPPORT. The frame of each state operation: the parts it can change (the words of Safety). -/

namespace Sys2Proof.Machine

variable (s : State)

theorem State.ChangesOnly.trans {s s' s'' : State} {parts parts' : List Part} (h : s.ChangesOnly s' parts)
    (h' : s'.ChangesOnly s'' parts') : s.ChangesOnly s'' (parts ++ parts') := by
  intro part outside
  obtain ⟨out, out'⟩ : part ∉ parts ∧ part ∉ parts' := by simpa using outside
  have first := h part out
  have second := h' part out'
  cases part with
  | istore => exact ⟨fun k => (second.1 k).trans (first.1 k), second.2.trans first.2⟩
  | _ => exact Eq.trans second first

theorem State.ChangesOnly.mono {s s' : State} {parts parts' : List Part} (h : s.ChangesOnly s' parts)
    (sub : parts ⊆ parts') : s.ChangesOnly s' parts' :=
  fun part outside => h part fun inside => outside (sub inside)

theorem State.changesOnly_writeMem (a : Nat) (v : Word) : s.ChangesOnly (s.writeMem a v) [.cell a] := by
  intro part outside
  cases part with
  | cell k => exact s.readMem_writeMem_other a v fun h => outside (by simp [h])
  | istore => exact ⟨fun _ => rfl, rfl⟩
  | _ => rfl

theorem State.changesOnly_setSp (n : Nat) : s.ChangesOnly (s.setSp n) [.sp] := by
  intro part outside
  cases part with
  | sp => simp at outside
  | istore => exact ⟨fun _ => rfl, rfl⟩
  | _ => rfl

theorem State.changesOnly_jumpTo (n : Int) : s.ChangesOnly (s.jumpTo n) [.pc] := by
  intro part outside
  cases part with
  | pc => simp at outside
  | istore => exact ⟨fun _ => rfl, rfl⟩
  | _ => rfl

theorem State.changesOnly_raise (c : FaultCause) : s.ChangesOnly (s.raise c) [.status] := by
  intro part outside
  cases part with
  | status => simp at outside
  | istore => exact ⟨fun _ => rfl, rfl⟩
  | _ => rfl

theorem State.changesOnly_setHalted : s.ChangesOnly s.setHalted [.status] := by
  intro part outside
  cases part with
  | status => simp at outside
  | istore => exact ⟨fun _ => rfl, rfl⟩
  | _ => rfl

/-- Taking a fault is the record of R188 and nothing else. -/
theorem State.faultsInto_raise (c : FaultCause) : s.FaultsInto (s.raise c) c :=
  ⟨rfl, s.changesOnly_raise c⟩

end Sys2Proof.Machine
end

section
/-! SUPPORT. When an executed instruction faults, and what it can have changed otherwise
(60_exceptions.md R180, R188). -/

namespace Sys2Proof.Machine

variable {s s' : State} {i : Instr} {c : FaultCause} {part : Part}

/-! ## Faults -/

/-- The instruction faults with this cause in this state (the causes of R180 that execution finds). -/
def FaultCause.RaisedBy (c : FaultCause) (i : Instr) (s : State) : Prop :=
  match c with
  | .illegalOpcode => False
  | .invalidShiftOperator => ∃ t a b, i = .sftInvalid t a b
  | .fetchOutOfRange => False
  | .stackOverflow => ∃ t f a b, i = .jal t f a b ∧ s.CondHolds f a b ∧ s.sp.val = 65536
  | .stackUnderflow => i = .ret ∧ s.sp.val = 0
  | .shiftDistanceOutOfRange => ∃ b, IsShiftBy i b ∧ (s16 (s.readReg b) < 0 ∨ 15 < s16 (s.readReg b))

/-- A shift with a distance outside 0 to 15 faults, whatever the operator. -/
theorem shiftWith_outside {f : Word → Nat → Word} {t a b : RegIdx}
    (outside : s16 (s.readReg b) < 0 ∨ 15 < s16 (s.readReg b)) :
    shiftWith f t a b s = .next (s.raise .shiftDistanceOutOfRange) := by
  rcases shiftWith_cases (s := s) f t a b with ⟨n, hn, distance, -⟩ | ⟨-, run⟩
  · omega
  · exact run

theorem execJal_taken (t : RegIdx) {f : Cond} {a b : RegIdx} (holds : s.CondHolds f a b) :
    execJal t f a b s = .next (callTo t s) := by
  rw [execJal, if_pos ((taken_iff f a b).mpr holds)]

theorem exec_of_raisedBy (h : c.RaisedBy i s) : exec i s = .next (s.raise c) := by
  cases c with
  | illegalOpcode => exact h.elim
  | fetchOutOfRange => exact h.elim
  | invalidShiftOperator => obtain ⟨t, a, b, rfl⟩ := h; rfl
  | stackOverflow =>
    obtain ⟨t, f, a, b, rfl, holds, full⟩ := h
    rcases callTo_cases (s := s) t with ⟨room, -⟩ | ⟨-, call⟩
    · omega
    · rw [exec, execJal_taken t holds, call]
  | stackUnderflow =>
    obtain ⟨rfl, empty⟩ := h
    rcases execRet_cases (s := s) with ⟨filled, -⟩ | ⟨-, run⟩
    · omega
    · exact run
  | shiftDistanceOutOfRange =>
    obtain ⟨b, ⟨t, a, rfl | rfl | rfl⟩, outside⟩ := h <;> exact shiftWith_outside outside

/-- How the execution of an instruction ends: it completes with the status as it was, it halts, or it faults. -/
theorem exec_outcome (h : exec i s = .next s') :
    (s'.status = s.status ∧ (Redirects i s ∨ s'.pc = s.pc + 1)) ∨ (i = .halt ∧ s' = s.setHalted) ∨
      ∃ c : FaultCause, c.RaisedBy i s ∧ s' = s.raise c := by
  -- the cases stand in the order of `exec_cases`
  rcases exec_cases h with ⟨t, v, -, rfl⟩ | ⟨a, b, -, rfl⟩ | ⟨-, rfl⟩ | ⟨t, f, a, b, hi, rfl⟩ |
    ⟨t, f, a, b, hi, ⟨-, rfl⟩ | ⟨holds, -, rfl⟩ | ⟨holds, full, rfl⟩⟩ | ⟨a, -, rfl⟩ |
    ⟨hi, ⟨-, rfl⟩ | ⟨empty, rfl⟩⟩ | ⟨b, hi, outside, rfl⟩ | ⟨t, a, b, hi, rfl⟩ | ⟨t, p, -, rfl⟩ | ⟨hi, rfl⟩
  · exact .inl ⟨rfl, .inr rfl⟩
  · exact .inl ⟨rfl, .inr rfl⟩
  · exact .inl ⟨rfl, .inr rfl⟩
  · split
    next holds => exact .inl ⟨rfl, .inl (.inr (.inr ⟨t, f, a, b, .inl hi, (taken_iff f a b).mp holds⟩))⟩
    next => exact .inl ⟨rfl, .inr rfl⟩
  · exact .inl ⟨rfl, .inr rfl⟩
  · exact .inl ⟨rfl, .inl (.inr (.inr ⟨t, f, a, b, .inr hi, (taken_iff f a b).mp holds⟩))⟩
  · exact .inr (.inr ⟨.stackOverflow, ⟨t, f, a, b, hi, (taken_iff f a b).mp holds, full⟩, rfl⟩)
  · exact .inl ⟨rfl, .inr rfl⟩
  · exact .inl ⟨rfl, .inl (.inl hi)⟩
  · exact .inr (.inr ⟨.stackUnderflow, ⟨hi, empty⟩, rfl⟩)
  · exact .inr (.inr ⟨.shiftDistanceOutOfRange, ⟨b, hi, outside⟩, rfl⟩)
  · exact .inr (.inr ⟨.invalidShiftOperator, ⟨t, a, b, hi⟩, rfl⟩)
  · exact .inl ⟨rfl, .inr rfl⟩
  · exact .inr (.inl ⟨hi, rfl⟩)

/-! ## Frames -/

/-- The instruction may change the part, executed in this state. -/
def Writes (i : Instr) (s : State) : Part → Prop
  | .reg r => destinationOf i = some r
  | .pc => True
  | .sp => (∃ a, i = .ssp a) ∨ (∃ t f a b, i = .jal t f a b ∧ s.CondHolds f a b) ∨ i = .ret
  | .cell k => (∃ a b, i = .store a b ∧ k = u16 (s.readReg b)) ∨
      ∃ t f a b, i = .jal t f a b ∧ s.CondHolds f a b ∧ k = s.sp.val
  | .port p => ∃ t, i = .outPort t p
  | .out => ∃ t p, i = .outPort t p
  | .status => True
  | .istore => False

/-- An executed instruction changes no part but those it may write. -/
theorem exec_frame (h : exec i s = .next s') (unwritten : ¬ Writes i s part) : s.SameAt s' part := by
  obtain ⟨parts, frame, written⟩ : ∃ parts, s.ChangesOnly s' parts ∧ ∀ part ∈ parts, Writes i s part := by
    -- the cases stand in the order of `exec_cases`
    rcases exec_cases h with ⟨t, v, dest, rfl⟩ | ⟨a, b, rfl, rfl⟩ | ⟨-, rfl⟩ | ⟨t, f, a, b, -, rfl⟩ |
      ⟨t, f, a, b, rfl, ⟨-, rfl⟩ | ⟨holds, -, rfl⟩ | ⟨-, -, rfl⟩⟩ | ⟨a, rfl, rfl⟩ |
      ⟨rfl, ⟨-, rfl⟩ | ⟨-, rfl⟩⟩ | ⟨b, -, -, rfl⟩ | ⟨t, a, b, -, rfl⟩ | ⟨t, p, rfl, rfl⟩ | ⟨-, rfl⟩
    · exact ⟨_, s.changesOnly_writeReg_advance t v, by simp [Writes, dest]⟩
    · exact ⟨_, (s.changesOnly_writeMem _ _).trans (State.changesOnly_advance _),
        by simp [Writes, effectiveAddress]⟩
    · exact ⟨_, s.changesOnly_advance, by simp [Writes]⟩
    · split
      next => exact ⟨_, s.changesOnly_jumpTo _, by simp [Writes]⟩
      next => exact ⟨_, s.changesOnly_advance, by simp [Writes]⟩
    · exact ⟨_, s.changesOnly_advance, by simp [Writes]⟩
    · exact ⟨_, ((s.changesOnly_writeMem _ _).trans (State.changesOnly_setSp _ _)).trans (State.changesOnly_jumpTo _ _),
        by simp [Writes, (taken_iff f a b).mp holds]⟩
    · exact ⟨_, s.changesOnly_raise _, by simp [Writes]⟩
    · exact ⟨_, (s.changesOnly_setSp _).trans (State.changesOnly_advance _), by simp [Writes]⟩
    · exact ⟨_, (s.changesOnly_setSp _).trans (State.changesOnly_jumpTo _ _), by simp [Writes]⟩
    · exact ⟨_, s.changesOnly_raise _, by simp [Writes]⟩
    · exact ⟨_, s.changesOnly_raise _, by simp [Writes]⟩
    · exact ⟨_, s.changesOnly_raise _, by simp [Writes]⟩
    · exact ⟨_, s.changesOnly_writePort_emit_advance p _ _, by simp [Writes]⟩
    · exact ⟨_, s.changesOnly_setHalted, by simp [Writes]⟩
  exact frame part fun inside => unwritten (written part inside)

end Sys2Proof.Machine
end

section
/-! SUPPORT. What a step does, seen from the word at `pc` (00_scope.md R7, 60_exceptions.md). -/

namespace Sys2Proof.Machine

variable {s s' : State} {i : Instr} {c : FaultCause} {part : Part}

/-! ## Steps -/

theorem decode_ne_error (w : Word) (e : DecodeReject) : decode w ≠ .error e := by
  obtain ⟨i, hi⟩ := exists_readsAs w
  rw [decode_of_readsAs hi]
  nofun

theorem step_of_aboutToRun (h : s.AboutToRun i) : step s = exec i s := by
  obtain ⟨running, w, fetch, decoded⟩ := h
  simp only [step_running running, fetch, runWord, decoded]

theorem step_of_fetch_none (running : s.status = .running) (h : s.fetchWord = none) :
    step s = .next (s.raise .fetchOutOfRange) := by
  simp only [step_running running, h]

/-- A step that answers a next state faults at the fetch or executes the instruction about to run; the decoder refuses
no word (60_exceptions.md R182). -/
theorem step_inv (h : step s = .next s') :
    (s.status = .running ∧ s.fetchWord = none ∧ s' = s.raise .fetchOutOfRange) ∨
      ∃ i, s.AboutToRun i ∧ exec i s = .next s' := by
  obtain ⟨running, ⟨fetch, rfl⟩ | ⟨w, -, refused, -⟩ | ⟨w, i, fetch, decoded, run⟩⟩ := step_cases h
  · exact .inl ⟨running, fetch, rfl⟩
  · exact absurd refused (decode_ne_error w _)
  · exact .inr ⟨i, ⟨running, w, fetch, decoded⟩, run⟩

/-- Settles O15: with the fetch inside the store, `step` is the execution of the decoded instruction. -/
theorem stepRunsTheDecodedInstruction : Obligations.StepRunsTheDecodedInstruction :=
  fun _ _ running low high decoded => step_of_aboutToRun ⟨running, _, State.fetchWord_inside low high, decoded⟩

/-- Settles O16: every step that answers a next state starts from a running engine. -/
theorem finishedEngineHasNoStep : Obligations.FinishedEngineHasNoStep :=
  fun _ finished _ h => finished (step_cases h).1

/-- Settles O17: outside the store there is no word to fetch, so the fault's record holds none. -/
theorem fetchOutsideTheStoreFaults : Obligations.FetchOutsideTheStoreFaults := by
  intro s running outside
  have fetch : s.fetchWord = none := State.fetchWord_eq_none.mpr outside
  refine ⟨s.raise .fetchOutOfRange, step_of_fetch_none running fetch, ?_, s.changesOnly_raise _⟩
  rw [State.raise_status, fetch]

/-! ## Faults -/

/-- The fault `c` is the one the next step of a running engine takes: at the fetch, or from the
instruction about to run. -/
def State.StepFaults (s : State) (c : FaultCause) : Prop :=
  (c = .fetchOutOfRange ∧ s.fetchWord = none) ∨ ∃ i, s.AboutToRun i ∧ c.RaisedBy i s

theorem step_of_stepFaults (running : s.status = .running) (h : s.StepFaults c) : step s = .next (s.raise c) := by
  obtain ⟨rfl, fetch⟩ | ⟨i, about, raised⟩ := h
  · exact step_of_fetch_none running fetch
  · rw [step_of_aboutToRun about, exec_of_raisedBy raised]

/-- How a step ends: the engine is running still, it halts at `HALT`, or it takes the fault that is due. -/
theorem step_outcome (h : step s = .next s') :
    s'.status = .running ∨ (s.AboutToRun .halt ∧ s' = s.setHalted) ∨ ∃ c, s.StepFaults c ∧ s' = s.raise c := by
  obtain ⟨-, fetch, rfl⟩ | ⟨i, about, run⟩ := step_inv h
  · exact .inr (.inr ⟨_, .inl ⟨rfl, fetch⟩, rfl⟩)
  · obtain ⟨status, -⟩ | ⟨rfl, rfl⟩ | ⟨c, raised, rfl⟩ := exec_outcome run
    · exact .inl (status.trans about.1)
    · exact .inr (.inl ⟨about, rfl⟩)
    · exact .inr (.inr ⟨c, .inr ⟨i, about, raised⟩, rfl⟩)

/-- A step that ends `Faulted` took the fault of its record. -/
theorem step_faulted {p : Int} {w : Option Word} (h : step s = .next s') (faulted : s'.status = .faulted c p w) :
    s.StepFaults c ∧ s' = s.raise c := by
  obtain running | ⟨-, rfl⟩ | ⟨c', due, rfl⟩ := step_outcome h
  · rw [running] at faulted
    cases faulted
  · cases faulted
  · cases faulted
    exact ⟨due, rfl⟩

/-- Settles O18: the only way to a `Faulted` status is the fault entry of R188. -/
theorem faultsArePrecise : Obligations.FaultsArePrecise := by
  intro s s' c p w h faulted
  obtain ⟨-, rfl⟩ := step_faulted h faulted
  exact s.faultsInto_raise c

/-- Settles O20: `HALT` is the only instruction that sets the status `Halted`, and it always does. -/
theorem haltsExactlyAtHalt : Obligations.HaltsExactlyAtHalt := by
  refine fun s _ => ⟨?_, fun about => ⟨s.setHalted, step_of_aboutToRun about, rfl⟩⟩
  rintro ⟨s', h, halted⟩
  obtain running | ⟨about, -⟩ | ⟨c, -, rfl⟩ := step_outcome h
  · rw [running] at halted
    cases halted
  · exact about
  · cases halted

/-- Settles O21: an instruction that completes and does not redirect `pc` adds 1 to it. -/
theorem otherInstructionsAdvancePc : Obligations.OtherInstructionsAdvancePc := by
  intro s s' i about straight h running
  rw [step_of_aboutToRun about] at h
  obtain ⟨-, redirects | advanced⟩ | ⟨-, rfl⟩ | ⟨c, -, rfl⟩ := exec_outcome h
  · exact absurd redirects straight
  · exact advanced
  · cases running
  · cases running

/-! ## Frames -/

/-- What a step changes, but for the status, the instruction about to run may write. -/
theorem step_frame (h : step s = .next s') (changed : ¬ s.SameAt s' part) :
    part = .status ∨ ∃ i, s.AboutToRun i ∧ exec i s = .next s' ∧ Writes i s part := by
  obtain ⟨-, -, rfl⟩ | ⟨i, about, run⟩ := step_inv h
  · by_contra other
    exact changed (s.changesOnly_raise _ part (by simpa using fun status => other (.inl status)))
  · exact .inr ⟨i, about, run, by_contra fun unwritten => changed (exec_frame run unwritten)⟩

/-- Settles O24: of the instructions only `OUT` writes a port, and only its own. -/
theorem portsChangeOnlyByOut : Obligations.PortsChangeOnlyByOut := by
  intro s s' p h others
  by_contra changed
  obtain status | ⟨i, about, -, t, rfl⟩ := step_frame (part := .port p) h changed
  · cases status
  · exact others t about

/-- Settles O25: of the instructions only `STORE` and a taken `JAL` write a cell. -/
theorem memoryChangesOnlyByStoreAndCall : Obligations.MemoryChangesOnlyByStoreAndCall := by
  intro s s' k h changed
  obtain status | ⟨i, about, -, ⟨a, b, rfl, address⟩ | ⟨t, f, a, b, rfl, holds, address⟩⟩ :=
    step_frame (part := .cell k) h changed
  · cases status
  · exact .inl ⟨a, b, about, address⟩
  · exact .inr ⟨t, f, a, b, about, holds, address⟩

/-- Settles O26: of the instructions only `SSP`, a taken `JAL` and `RET` write `sp`; the last two move it by 1 unless
they fault. -/
theorem stackPointerChangesOnlyByItsInstructions : Obligations.StackPointerChangesOnlyByItsInstructions := by
  intro s s' h changed
  obtain status | ⟨i, about, run, ⟨a, rfl⟩ | ⟨t, f, a, b, rfl, holds⟩ | rfl⟩ := step_frame (part := .sp) h changed
  · cases status
  · exact .inl ⟨a, about⟩
  · rw [exec, execJal_taken t holds] at run
    cases run
    obtain ⟨room, call⟩ | ⟨-, call⟩ := callTo_cases (s := s) t
    · refine .inr (.inl ⟨t, f, a, b, about, holds, ?_⟩)
      rw [call, State.jumpTo_sp, State.setSp_sp _ _ (by omega)]
    · exact absurd (by rw [call, State.raise_sp]) changed
  · obtain ⟨filled, ret⟩ | ⟨-, ret⟩ := execRet_cases (s := s)
    · cases run.symm.trans ret
      refine .inr (.inr ⟨about, ?_⟩)
      rw [State.jumpTo_sp, State.setSp_sp _ _ (by omega)]
      omega
    · cases run.symm.trans ret
      exact absurd rfl changed

/-- Settles O27: an instruction writes no register but its destination. -/
theorem registersChangeOnlyAtTheDestination : Obligations.RegistersChangeOnlyAtTheDestination := by
  intro s s' i r about h other
  rw [step_of_aboutToRun about] at h
  exact exec_frame (part := .reg r) h other

end Sys2Proof.Machine
end

section
/-! SUPPORT. Which fault each step takes (60_exceptions.md R180, R182, R183). -/

namespace Sys2Proof.Machine

variable {w row : Word} {s : State} {c : FaultCause}

/-! ## The rows of opcode 13 -/

theorem selField_and (p q : Word) : selField (p &&& q) = selField p &&& selField q :=
  BitVec.extractLsb'_and

/-- The mask of the rows of `SFT` keeps the opcode and the operator. -/
theorem fields_of_shift_row (h : w &&& 0xF006 = row) : opcodeField w = opcodeField row ∧ selField w = selField row := by
  rw [← h, opcodeField_and, selField_and, show opcodeField 0xF006 = BitVec.allOnes 4 from rfl,
    show selField 0xF006 = BitVec.allOnes 2 from rfl, BitVec.and_allOnes, BitVec.and_allOnes]
  exact ⟨rfl, rfl⟩

/-- What a word of opcode 13 decodes to, by the operator of its row. -/
theorem decode_shift_row (h : w &&& 0xF006 = row) (opcode : opcodeField row = 13) :
    decode w = .ok (
      if selField row = 0 then .sftLeft (field3 w 9) (field3 w 6) (field3 w 3)
      else if selField row = 1 then .sftLogicalRight (field3 w 9) (field3 w 6) (field3 w 3)
      else if selField row = 2 then .sftArithRight (field3 w 9) (field3 w 6) (field3 w 3)
      else .sftInvalid (field3 w 9) (field3 w 6) (field3 w 3)) := by
  obtain ⟨op, sel⟩ := fields_of_shift_row h
  have hop : (opcodeField w).toNat = 13 := by rw [op, opcode]; rfl
  simp only [decode, hop, sel, apply_ite Except.ok]

/-- The words of operator 3 are those of the table's row `SFT.INVALID`. -/
theorem decode_sftInvalid_iff : (∃ t a b, decode w = .ok (.sftInvalid t a b)) ↔ w &&& 0xF006 = 0xD006 := by
  refine ⟨?_, fun h => ⟨_, _, _, decode_shift_row h rfl⟩⟩
  rintro ⟨t, a, b, decoded⟩
  obtain ⟨op, sel, -⟩ := decode_eq_ok_iff.mp decoded
  exact and_opcode_sel op sel

/-! ## The table of R180 -/

/-- The condition of the fault table is the one under which the step takes the fault. -/
theorem arises_iff (running : s.status = .running) : c.Arises s ↔ s.StepFaults c := by
  cases c with
  | illegalOpcode => simp [FaultCause.Arises, State.StepFaults, FaultCause.RaisedBy]
  | fetchOutOfRange =>
    simp [FaultCause.Arises, State.StepFaults, FaultCause.RaisedBy, State.fetchWord_eq_none]
  | invalidShiftOperator =>
    constructor
    · rintro ⟨w, fetch, row⟩
      obtain ⟨t, a, b, decoded⟩ := decode_sftInvalid_iff.mpr row
      exact .inr ⟨_, ⟨running, w, fetch, decoded⟩, t, a, b, rfl⟩
    · rintro (⟨fetch, -⟩ | ⟨i, ⟨-, w, fetch, decoded⟩, t, a, b, rfl⟩)
      · cases fetch
      · exact ⟨w, fetch, decode_sftInvalid_iff.mp ⟨t, a, b, decoded⟩⟩
  | stackOverflow =>
    constructor
    · rintro ⟨t, f, a, b, about, holds, full⟩
      exact .inr ⟨_, about, t, f, a, b, rfl, holds, full⟩
    · rintro (⟨fetch, -⟩ | ⟨i, about, t, f, a, b, rfl, holds, full⟩)
      · cases fetch
      · exact ⟨t, f, a, b, about, holds, full⟩
  | stackUnderflow =>
    constructor
    · rintro ⟨about, empty⟩
      exact .inr ⟨_, about, rfl, empty⟩
    · rintro (⟨fetch, -⟩ | ⟨i, about, rfl, empty⟩)
      · cases fetch
      · exact ⟨about, empty⟩
  | shiftDistanceOutOfRange =>
    constructor
    · rintro ⟨i, b, about, shift, outside⟩
      exact .inr ⟨i, about, b, shift, outside⟩
    · rintro (⟨fetch, -⟩ | ⟨i, about, b, shift, outside⟩)
      · cases fetch
      · exact ⟨i, b, about, shift, outside⟩

/-- Settles O19: a step takes the fault that is due, and its record names that one. -/
theorem faultsAriseExactlyWhenListed : Obligations.FaultsAriseExactlyWhenListed := by
  intro s c running
  rw [arises_iff running]
  constructor
  · rintro ⟨s', h, faulted, -⟩
    exact (step_faulted h faulted).1
  · intro due
    exact ⟨s.raise c, step_of_stepFaults running due, s.faultsInto_raise c⟩

/-- Settles O2: every opcode is assigned, `decodeBits` guards the width, and no step takes the fault `IllegalOpcode`. -/
theorem noWordHasAnIllegalOpcode : Obligations.NoWordHasAnIllegalOpcode := by
  refine ⟨fun w => ?_, fun n wide => ?_, fun s s' p w h faulted => ?_⟩
  · obtain ⟨i, hi⟩ := exists_readsAs w
    exact ⟨i, decode_of_readsAs hi, wellFormed_of_readsAs hi⟩
  · exact if_neg (Nat.not_lt.mpr wide)
  · exact (arises_iff (step_cases h).1).mpr (step_faulted h faulted).1

end Sys2Proof.Machine
end

section
/-! SUPPORT. The invariant: every launch meets it and every step keeps it. -/

namespace Sys2Proof.Machine

variable {s s' : State} {i : Instr} {c : FaultCause}

/-! ## Operations -/

theorem State.Inv.writeReg (h : s.Inv) (r : RegIdx) (v : Word) : (s.writeReg r v).Inv :=
  ⟨h.mem_wf, h.store_wf, h.size_admitted, h.pc_range, h.out_range, h.fault_record⟩

theorem State.Inv.writeMem (h : s.Inv) {a : Nat} (ha : a < Config.memSize) (v : Word) : (s.writeMem a v).Inv :=
  ⟨State.writeMem_wf h.mem_wf ha, h.store_wf, h.size_admitted, h.pc_range, h.out_range, h.fault_record⟩

theorem State.Inv.writePort (h : s.Inv) (p : Port) (v : Word) : (s.writePort p v).Inv :=
  ⟨h.mem_wf, h.store_wf, h.size_admitted, h.pc_range, h.out_range, h.fault_record⟩

theorem State.Inv.setSp (h : s.Inv) (n : Nat) : (s.setSp n).Inv :=
  ⟨h.mem_wf, h.store_wf, h.size_admitted, h.pc_range, h.out_range, h.fault_record⟩

theorem State.Inv.emit (h : s.Inv) (v : Word) : (s.emit v).Inv := by
  refine ⟨h.mem_wf, h.store_wf, h.size_admitted, h.pc_range, fun n hn => ?_, h.fault_record⟩
  obtain earlier | rfl : n ∈ s.out ∨ n = s16 v := by simpa using hn
  · exact h.out_range n earlier
  · exact toInt_range v

/-- `pc` can be moved within its range as long as no fault is recorded. -/
theorem State.Inv.jumpTo (h : s.Inv) (running : s.status = .running) {n : Int} (range : -32768 ≤ n ∧ n ≤ 32768) :
    (s.jumpTo n).Inv := by
  refine ⟨h.mem_wf, h.store_wf, h.size_admitted, range, h.out_range, fun c p w faulted => ?_⟩
  rw [State.jumpTo_status, running] at faulted
  cases faulted

theorem State.Inv.setHalted (h : s.Inv) : s.setHalted.Inv :=
  ⟨h.mem_wf, h.store_wf, h.size_admitted, h.pc_range, h.out_range, fun _ _ _ faulted => by cases faulted⟩

/-- Taking a fault that can occur records what is true of the state. -/
theorem State.Inv.raise (h : s.Inv) (legal : c ≠ .illegalOpcode) (fetch : s.fetchWord = none ↔ c = .fetchOutOfRange) :
    (s.raise c).Inv := by
  refine ⟨h.mem_wf, h.store_wf, h.size_admitted, h.pc_range, h.out_range, fun c' p w faulted => ?_⟩
  cases faulted
  exact ⟨legal, rfl, rfl, fetch⟩

/-! ## Instructions and steps -/

/-- An engine with a word to fetch can advance within the range of `pc`, since the store has at most 32768 cells. -/
theorem State.Inv.advance (h : s.Inv) (running : s.status = .running) (fetch : s.fetchWord ≠ none) : s.advance.Inv := by
  have inside := State.fetchWord_eq_none.not.mp fetch
  have size : s.storeSize ≤ 32768 := h.size_admitted.2
  exact h.jumpTo running (by omega)

theorem exec_keeps_inv (h : s.Inv) (running : s.status = .running) (fetch : s.fetchWord ≠ none)
    (run : exec i s = .next s') : s'.Inv := by
  have faults : ∀ c : FaultCause, c ≠ .illegalOpcode → c ≠ .fetchOutOfRange → (s.raise c).Inv :=
    fun c legal found => h.raise legal (by simp [fetch, found])
  have target : ∀ v : Word, -32768 ≤ jumpTarget v ∧ jumpTarget v ≤ 32768 := fun v => by
    have range := toInt_range v
    exact ⟨range.1, range.2.trans (by decide)⟩
  -- the cases stand in the order of `exec_cases`
  rcases exec_cases run with ⟨t, v, -, rfl⟩ | ⟨a, b, -, rfl⟩ | ⟨-, rfl⟩ | ⟨t, f, a, b, -, rfl⟩ |
    ⟨t, f, a, b, -, ⟨-, rfl⟩ | ⟨-, room, rfl⟩ | ⟨-, -, rfl⟩⟩ | ⟨a, -, rfl⟩ |
    ⟨-, ⟨-, rfl⟩ | ⟨-, rfl⟩⟩ | ⟨b, -, -, rfl⟩ | ⟨t, a, b, -, rfl⟩ | ⟨t, p, -, rfl⟩ | ⟨-, rfl⟩
  · exact (h.writeReg t v).advance running fetch
  · exact (h.writeMem (effectiveAddress_lt _) _).advance running fetch
  · exact h.advance running fetch
  · split
    next => exact h.jumpTo running (target _)
    next => exact h.advance running fetch
  · exact h.advance running fetch
  · exact ((h.writeMem room _).setSp _).jumpTo running (target _)
  · exact faults _ nofun nofun
  · exact (h.setSp _).advance running fetch
  · have range := toInt_range (s.readMem (s.sp.val - 1))
    exact (h.setSp _).jumpTo running (by rw [returnTarget, s16_eq]; omega)
  · exact faults _ nofun nofun
  · exact faults _ nofun nofun
  · exact faults _ nofun nofun
  · exact ((h.writePort p _).emit _).advance running fetch
  · exact h.setHalted

/-- Settles O14: each operation an instruction is made of keeps the invariant. -/
theorem stepKeepsTheInvariant : Obligations.StepKeepsTheInvariant := by
  intro s s' h next
  obtain ⟨-, fetch, rfl⟩ | ⟨i, ⟨running, w, fetch, -⟩, run⟩ := step_inv next
  · exact h.raise nofun (by simp [fetch])
  · exact exec_keeps_inv h running (by simp [fetch]) run

/-! ## Launches -/

/-- Word `j` of a sequence loaded from index `k` on stands at `k + j`; beyond the sequence the cells are unlisted. -/
theorem Memory.read_load (d : Word) (k j : Nat) (ws : List Word) :
    Memory.read d (Memory.load d k ws) (k + j) = ws.getD j d := by
  induction ws generalizing k j with
  | nil => simp [Memory.load, Memory.read]
  | cons w rest ih =>
    cases j with
    | zero =>
      by_cases listed : w = d
      · have above : ∀ c ∈ Memory.load d (k + 1) rest, k < c.1 := fun c hc => (Memory.mem_load_above hc).1
        simp [Memory.load, listed, Memory.read_of_all_above above]
      · simp [Memory.load, Memory.read, listed]
    | succ j =>
      have next := ih (k + 1) j
      rw [show k + 1 + j = k + (j + 1) by omega] at next
      by_cases listed : w = d
      · simpa [Memory.load, listed] using next
      · simpa [Memory.load, Memory.read, listed] using next

/-- Settles O11: the store of a launch is the program loaded from index 0 on. -/
theorem loadedProgramFillsTheStore : Obligations.LoadedProgramFillsTheStore := by
  refine fun l k => ⟨rfl, ?_⟩
  have word := Memory.read_load Memory.unloaded 0 k l.program
  rwa [Nat.zero_add] at word

/-- Settles O12: a loaded program is in canonical form, and a launch starts at `pc` 0 with no events, running. -/
theorem launchStatesMeetTheInvariant : Obligations.LaunchStatesMeetTheInvariant := by
  intro l ⟨nonempty, bounded, fits, mem⟩
  have atStart : (-32768 : Int) ≤ 0 ∧ (0 : Int) ≤ 32768 := by decide
  exact ⟨mem, Memory.load_wf (by rwa [Nat.zero_add]), ⟨nonempty, bounded⟩, atStart, nofun, nofun⟩

/-- Settles O13: reset is a launch at admitted parameters. -/
theorem resetMeetsTheInvariant : Obligations.ResetMeetsTheInvariant :=
  launchStatesMeetTheInvariant Launch.atReset Launch.atReset_admitted

end Sys2Proof.Machine
end

section
/-! SUPPORT. Load and store, and what a load finds after a store (40_load_store.md, 20_memory.md). -/

namespace Sys2Proof.Machine

variable (s : State)

theorem State.changesOnly_writeMem_advance (a : Nat) (v : Word) :
    s.ChangesOnly (s.writeMem a v).advance [.cell a, .pc] :=
  (s.changesOnly_writeMem a v).trans (State.changesOnly_advance _)

/-- Settles O33: `LOAD` is a register write followed by `pc + 1`. -/
theorem loadReadsTheAddressedCell : Obligations.LoadReadsTheAddressedCell :=
  fun t _ s => ⟨_, rfl, s.readReg_writeReg_same t _, rfl, s.changesOnly_writeReg_advance t _⟩

/-- Settles O34: `STORE` is a memory write followed by `pc + 1`. -/
theorem storeWritesTheAddressedCell : Obligations.StoreWritesTheAddressedCell :=
  fun _ _ s => ⟨_, rfl, s.readMem_writeMem_same _ _, rfl, s.changesOnly_writeMem_advance _ _⟩

/-- Settles O28: two registers name the same cell exactly when they hold the same word. -/
theorem loadSeesTheLastStore : Obligations.LoadSeesTheLastStore := by
  refine fun a b t q s => ⟨_, _, rfl, rfl, ?_⟩
  simp [State.readMem_writeMem, effectiveAddress, BitVec.toNat_inj]

/-- Settles O29: a port is storage that `OUT` writes and `IN` reads. -/
theorem inSeesTheLastOut : Obligations.InSeesTheLastOut := by
  refine fun t q p p' s => ⟨_, _, rfl, rfl, ?_, rfl⟩
  simp [State.readPort_writePort]

end Sys2Proof.Machine
end

section
/-! SUPPORT. ADDI and SUB, and the two readings of a sum and a difference (41_arith_logic.md R110, R112, R113). -/

namespace Sys2Proof.Machine

/-- Settles O36: the immediate's word has the immediate's residue modulo 2^16, also when it is negative. -/
theorem addiAddsTheSignedImmediate : Obligations.AddiAddsTheSignedImmediate := by
  intro t imm s
  obtain ⟨s', run, value, frame⟩ := aluResult_effect t (addWords (s.readReg t) (immWord imm)) s
  refine ⟨s', run, ?_, frame⟩
  have residue := toNat_wrap16 imm
  rw [value, u16_eq, u16_eq, toNat_addWords, immWord]
  omega

/-- Settles O37: the difference of the unsigned readings is exact before it is wrapped. -/
theorem subWrapsTheDifference : Obligations.SubWrapsTheDifference := by
  intro t a b s
  obtain ⟨s', run, value, frame⟩ := aluResult_effect t (subWords (s.readReg a) (s.readReg b)) s
  exact ⟨s', run, by rw [value]; exact toNat_wrap16 _, frame⟩

theorem wrap16_congr {m n : Int} (h : m % 65536 = n % 65536) : wrap16 m = wrap16 n := by
  refine BitVec.eq_of_toNat_eq (Int.ofNat_inj.mp ?_)
  rw [toNat_wrap16, toNat_wrap16, h]

theorem toInt_emod (v : Word) : v.toInt % 65536 = v.toNat % 65536 := by
  rw [toInt_eq]
  split <;> omega

theorem addWords_signed (p q : Word) : addWords p q = wrap16 (s16 p + s16 q) :=
  wrap16_congr (by rw [s16_eq, s16_eq, Int.add_emod, Int.add_emod p.toInt, toInt_emod, toInt_emod])

theorem subWords_signed (p q : Word) : subWords p q = wrap16 (s16 p - s16 q) :=
  wrap16_congr (by rw [s16_eq, s16_eq, Int.sub_emod, Int.sub_emod p.toInt, toInt_emod, toInt_emod])

/-- Settles O41: both readings of a word wrap to the word, and wrapping respects sums and differences. -/
theorem signedAndUnsignedArithmeticAgree : Obligations.SignedAndUnsignedArithmeticAgree := by
  intro t a b s s1 s2 add sub
  cases add
  cases sub
  exact ⟨(s.readReg_writeReg_same t _).trans (addWords_signed _ _),
    (s.readReg_writeReg_same t _).trans (subWords_signed _ _)⟩

end Sys2Proof.Machine
end

section
/-! SUPPORT. Jumps, calls and returns (42_control_flow.md). -/

namespace Sys2Proof.Machine

variable {s : State} {f : Cond} {a b : RegIdx}

/-! ## J -/

theorem exec_j_taken (t : RegIdx) (holds : s.CondHolds f a b) :
    exec (.j t f a b) s = .next (s.jumpTo (s16 (s.readReg t))) := by
  rw [exec, execJ, if_pos ((taken_iff f a b).mpr holds), jumpTarget]

theorem exec_j_untaken (t : RegIdx) (fails : ¬ s.CondHolds f a b) : exec (.j t f a b) s = .next s.advance := by
  rw [exec, execJ, if_neg ((taken_iff f a b).not.mpr fails)]

/-- Settles O42: a taken jump sets `pc` to the target and an untaken one adds 1 to it. -/
theorem jumpGoesToTheTargetWhenTaken : Obligations.JumpGoesToTheTargetWhenTaken := by
  intro t f a b s
  by_cases holds : s.CondHolds f a b
  · exact ⟨_, exec_j_taken t holds, fun _ => rfl, fun fails => absurd holds fails, s.changesOnly_jumpTo _⟩
  · exact ⟨_, exec_j_untaken t holds, fun taken => absurd taken holds, fun _ => rfl, s.changesOnly_advance⟩

/-! ## JAL -/

theorem exec_jal_untaken (t : RegIdx) (fails : ¬ s.CondHolds f a b) : exec (.jal t f a b) s = .next s.advance := by
  rw [exec, execJal, if_neg ((taken_iff f a b).not.mpr fails)]

/-- The state a call leaves when there is a cell to push to. -/
def State.called (s : State) (t : RegIdx) : State :=
  ((s.writeMem s.sp.val (returnWord s.pc)).setSp (s.sp.val + 1)).jumpTo (jumpTarget (s.readReg t))

theorem exec_jal_call (t : RegIdx) (holds : s.CondHolds f a b) (room : s.sp.val < 65536) :
    exec (.jal t f a b) s = .next (s.called t) := by
  rcases callTo_cases (s := s) t with ⟨-, call⟩ | ⟨full, -⟩
  · rw [exec, execJal_taken t holds, call, State.called]
  · omega

theorem State.called_sp (t : RegIdx) (room : s.sp.val < 65536) : (s.called t).sp.val = s.sp.val + 1 := by
  rw [State.called, State.jumpTo_sp, State.setSp_sp _ _ (by omega)]

theorem State.readMem_called (t : RegIdx) : (s.called t).readMem s.sp.val = wrap16 s.pc :=
  s.readMem_writeMem_same _ _

theorem State.changesOnly_called (s : State) (t : RegIdx) : s.ChangesOnly (s.called t) [.cell s.sp.val, .sp, .pc] :=
  ((s.changesOnly_writeMem _ _).trans (State.changesOnly_setSp _ _)).trans (State.changesOnly_jumpTo _ _)

/-- Settles O43: a call is a push of the own index followed by a jump. -/
theorem callPushesItsOwnIndex : Obligations.CallPushesItsOwnIndex :=
  fun t _ _ _ s holds room =>
    ⟨s.called t, exec_jal_call t holds room, State.readMem_called t, State.called_sp t room, rfl,
      s.changesOnly_called t⟩

/-- Settles O44: an untaken `JAL` is `advance` alone. -/
theorem untakenCallOnlyAdvances : Obligations.UntakenCallOnlyAdvances :=
  fun t _ _ _ s fails => ⟨s.advance, exec_jal_untaken t fails, rfl, s.changesOnly_advance⟩

/-- Settles O45: with `sp` past the last cell a taken `JAL` raises the overflow. -/
theorem callBeyondTheLastCellFaults : Obligations.CallBeyondTheLastCellFaults :=
  fun t f a b s holds full =>
    ⟨s.raise .stackOverflow, exec_of_raisedBy (c := .stackOverflow) ⟨t, f, a, b, rfl, holds, full⟩,
      s.faultsInto_raise _⟩

/-! ## SSP and RET -/

/-- Settles O46: every unsigned reading is within the range of `sp`. -/
theorem sspTakesTheUnsignedRegister : Obligations.SspTakesTheUnsignedRegister := by
  intro a s
  have inRange : stackPointerOf (s.readReg a) ≤ 65536 := (s.readReg a).isLt.le
  exact ⟨(s.setSp (stackPointerOf (s.readReg a))).advance, rfl, s.setSp_sp _ inRange, rfl,
    (s.changesOnly_setSp _).trans (State.changesOnly_advance _)⟩

/-- The state a return leaves when there is a cell to pop. -/
def State.returned (s : State) : State :=
  (s.setSp (s.sp.val - 1)).jumpTo (returnTarget (s.readMem (s.sp.val - 1)))

theorem exec_ret_pop (filled : 0 < s.sp.val) : exec .ret s = .next s.returned := by
  rcases execRet_cases (s := s) with ⟨-, run⟩ | ⟨empty, -⟩
  · exact run
  · omega

theorem State.returned_sp (s : State) : s.returned.sp.val = s.sp.val - 1 := by
  rw [State.returned, State.jumpTo_sp, State.setSp_sp _ _ (by omega)]

/-- Settles O47: a return is a pop followed by a jump to one past the popped index. -/
theorem retGoesOnePastThePoppedIndex : Obligations.RetGoesOnePastThePoppedIndex :=
  fun s filled => ⟨s.returned, exec_ret_pop filled, s.returned_sp, rfl,
    (s.changesOnly_setSp _).trans (State.changesOnly_jumpTo _ _)⟩

/-- Settles O48: with `sp` 0 a `RET` raises the underflow. -/
theorem retOnAnEmptyStackFaults : Obligations.RetOnAnEmptyStackFaults :=
  fun s empty =>
    ⟨s.raise .stackUnderflow, exec_of_raisedBy (c := .stackUnderflow) ⟨rfl, empty⟩, s.faultsInto_raise _⟩

/-- Settles O30: an index of the store is kept by a word, so the popped cell gives back the call's index. -/
theorem returnGoesJustAfterTheCall : Obligations.ReturnGoesJustAfterTheCall := by
  intro t f a b s holds room low high
  refine ⟨s.called t, exec_jal_call t holds room, fun s2 sp cell => ?_⟩
  have top : s2.sp.val = s.sp.val + 1 := by rw [sp, State.called_sp t room]
  have popped : s2.readMem (s2.sp.val - 1) = wrap16 s.pc := by
    rw [top, Nat.add_sub_cancel, cell, State.readMem_called]
  refine ⟨s2.returned, exec_ret_pop (by omega), ?_, Fin.ext ?_⟩
  · rw [State.returned, State.jumpTo_pc, popped, returnTarget, s16_eq, toInt_wrap16 (by omega) (by omega)]
  · rw [State.returned_sp, top, Nat.add_sub_cancel]

end Sys2Proof.Machine
end

section
/-! SUPPORT. SFT (43_shift.md): the bits of each shift, and its faults. -/

namespace Sys2Proof.Machine

variable {s : State}

/-! ## The shifts as bit vector operations -/

theorem shiftLeft_eq (v : Word) (n : Nat) : shiftLeft v n = v <<< n := by
  refine BitVec.eq_of_toNat_eq ?_
  have exact := toNat_wrap16 (v.toNat * 2 ^ n)
  rw [BitVec.toNat_shiftLeft, Nat.shiftLeft_eq]
  exact_mod_cast exact

theorem shiftLogicalRight_eq (v : Word) (n : Nat) : shiftLogicalRight v n = v >>> n := by
  refine BitVec.eq_of_toNat_eq ?_
  have below : v.toNat / 2 ^ n < 65536 := (Nat.div_le_self _ _).trans_lt v.isLt
  have exact : (shiftLogicalRight v n).toNat = v.toNat / 2 ^ n % 65536 := by
    exact_mod_cast toNat_wrap16 (v.toNat / 2 ^ n : Nat)
  rw [exact, BitVec.toNat_ushiftRight, Nat.shiftRight_eq_div_pow, Nat.mod_eq_of_lt below]

theorem shiftArithRight_eq (v : Word) (n : Nat) : shiftArithRight v n = v.sshiftRight n := by
  rw [shiftArithRight, s16_eq, Int.fdiv_eq_ediv_of_nonneg _ (by positivity), BitVec.sshiftRight_eq,
    Int.shiftRight_eq_div_pow]
  rfl

/-! ## Effect -/

/-- The whole effect of a shift by 0 to 15. -/
theorem shiftWith_effect (f : Word → Nat → Word) (t a : RegIdx) {b : RegIdx} {n : Nat} (small : n ≤ 15)
    (distance : s16 (s.readReg b) = n) : ∃ s', shiftWith f t a b s = .next s' ∧
      s'.readReg t = f (s.readReg a) n ∧ s'.pc = s.pc + 1 ∧ s.ChangesOnly s' [.reg t, .pc] := by
  rcases shiftWith_cases (s := s) f t a b with ⟨m, -, found, run⟩ | ⟨outside, -⟩
  · obtain rfl : m = n := by omega
    exact ⟨_, run, s.readReg_writeReg_same t _, rfl, s.changesOnly_writeReg_advance t _⟩
  · omega

/-- Settles O49: a product with `2^n`, wrapped, is the shift to the left. -/
theorem shiftLeftMovesBitsUp : Obligations.ShiftLeftMovesBitsUp := by
  refine ⟨fun w h => decode_shift_row h rfl, fun t a b s n small distance => ?_⟩
  obtain ⟨s', run, value, frame⟩ := shiftWith_effect shiftLeft t a small distance
  refine ⟨s', run, fun k hk => ?_, frame⟩
  rw [value, shiftLeft_eq, BitVec.getLsbD_shiftLeft, decide_eq_true hk, Bool.true_and]
  simp only [← decide_not, Nat.not_lt]

/-- Settles O50: the floor of a quotient by `2^n` is the shift to the right. -/
theorem shiftLogicalRightFillsWithZeros : Obligations.ShiftLogicalRightFillsWithZeros := by
  refine ⟨fun w h => decode_shift_row h rfl, fun t a b s n small distance => ?_⟩
  obtain ⟨s', run, value, frame⟩ := shiftWith_effect shiftLogicalRight t a small distance
  refine ⟨s', run, fun k hk => ?_, frame⟩
  rw [value, shiftLogicalRight_eq, BitVec.getLsbD_ushiftRight, Nat.add_comm n k]
  by_cases inside : k + n ≤ 15
  · rw [decide_eq_true inside, Bool.true_and]
  · rw [decide_eq_false inside, Bool.false_and, BitVec.getLsbD_of_ge _ _ (by omega)]

/-- Settles O51: the floor of a signed quotient by `2^n` is the arithmetic shift to the right. -/
theorem shiftArithRightFillsWithTheSign : Obligations.ShiftArithRightFillsWithTheSign := by
  refine ⟨fun w h => decode_shift_row h rfl, fun t a b s n small distance => ?_⟩
  obtain ⟨s', run, value, frame⟩ := shiftWith_effect shiftArithRight t a small distance
  refine ⟨s', run, fun k hk => ?_, frame⟩
  rw [value, shiftArithRight_eq, BitVec.getLsbD_sshiftRight, decide_eq_false (by omega), Bool.not_false, Bool.true_and,
    Nat.add_comm n k]
  by_cases inside : k + n ≤ 15
  · rw [if_pos inside, if_pos (by omega)]
  · rw [if_neg inside, if_neg (by omega)]
    rfl

/-- Settles O52: the distance is examined for every valid operator alike. -/
theorem shiftOutsideTheRangeFaults : Obligations.ShiftOutsideTheRangeFaults :=
  fun _ b s shift outside => ⟨s.raise .shiftDistanceOutOfRange,
    exec_of_raisedBy (c := .shiftDistanceOutOfRange) ⟨b, shift, outside⟩, s.faultsInto_raise _⟩

/-- Settles O53: operator 3 raises its fault before the distance is looked at. -/
theorem invalidShiftOperatorFaults : Obligations.InvalidShiftOperatorFaults :=
  ⟨fun _ => decode_sftInvalid_iff.mpr, fun t a b s => ⟨s.raise .invalidShiftOperator,
    exec_of_raisedBy (c := .invalidShiftOperator) ⟨t, a, b, rfl⟩, s.faultsInto_raise _⟩⟩

end Sys2Proof.Machine
end

section
/-! SUPPORT. HALT, and runs that never halt or end at the end of the store (45_system.md, 70_reset_and_hazards.md). -/

namespace Sys2Proof.Machine

variable {s : State}

/-- Settles O57: `HALT` changes the status alone. -/
theorem haltEndsTheRun : Obligations.HaltEndsTheRun := by
  refine ⟨fun w op => decode_of_readsAs ((toNat_opcodeField w).trans op), fun s => ⟨s.setHalted, rfl, rfl, ?_⟩⟩
  exact s.changesOnly_setHalted.mono (by simp)

/-- Settles O31: a jump to its own index leaves the state as it was, so by induction every run does. -/
theorem selfJumpRunsForever : Obligations.SelfJumpRunsForever := by
  intro n t a b s about own
  have stays : step s = .next s := by
    rw [step_of_aboutToRun about, exec_j_taken (f := .always) t trivial, own]
    rfl
  induction n with
  | zero => exact run_zero
  | succ n ih => rw [run_succ stays, ih]

theorem step_of_zero_word (running : s.status = .running) (low : 0 ≤ s.pc) (high : s.pc < s.storeSize)
    (zero : s.readStore s.pc.toNat = 0) : step s = .next s.advance :=
  step_of_aboutToRun (i := .nop) ⟨running, _, State.fetchWord_inside low high, zero ▸ rfl⟩

/-- Where the store holds only 0 for `n` words from `pc` on, `n` steps add `n` to `pc` and do nothing else. -/
theorem run_zero_words (n : Nat) (running : s.status = .running) (low : 0 ≤ s.pc) (high : s.pc + n ≤ s.storeSize)
    (zero : ∀ k : Nat, s.pc ≤ k → k < s.storeSize → s.readStore k = 0) :
    Host.Core.run Sys2Proof.core n s = .next (s.jumpTo (s.pc + n)) := by
  induction n generalizing s with
  | zero =>
    rw [run_zero, Nat.cast_zero, Int.add_zero]
    rfl
  | succ n ih =>
    have first := step_of_zero_word running low (by omega) (zero _ (by omega) (by omega))
    have rest := ih (s := s.advance) running (Int.add_nonneg low (by decide))
      (show s.pc + 1 + n ≤ s.storeSize by omega)
      fun k (hk : s.pc + 1 ≤ k) => zero k (by omega)
    have target : s.pc + 1 + n = s.pc + (n + 1 : Nat) := by omega
    rw [run_succ first, rest, ← target]
    rfl

/-- Settles O32: the zero words are `NOP`s up to the end of the store, where the fetch fails. -/
theorem unfilledStoreRunsToItsEndAndFaults : Obligations.UnfilledStoreRunsToItsEndAndFaults := by
  intro s running low high zero
  have length : s.pc + ((s.storeSize : Int) - s.pc).toNat = s.storeSize := by omega
  have run := run_zero_words _ running low length.le zero
  rw [length] at run
  have fetch : (s.jumpTo s.storeSize).fetchWord = none := State.fetchWord_eq_none.mpr (.inr (Int.le_refl _))
  refine ⟨_, _, run, rfl, s.changesOnly_jumpTo _, step_of_fetch_none running fetch, ?_, State.changesOnly_raise _ _⟩
  rw [State.raise_status, fetch, State.jumpTo_pc]

end Sys2Proof.Machine
end
